-- ==== Sys2Proof/Word.lean ====
section
/-!
DEFINITION. The machine's word types: the byte of the stream, the 8-bit command word, and the two value widths.
-/
namespace Sys2Proof

/-- One byte of the byte stream, `byte[7:0]` (R6, R40). -/
abbrev Byte := BitVec 8

/-- A command word, `CMD[7:0]` (R60). -/
abbrev CmdWord := BitVec 8

/-- The value width a command selects (R61): `w32` is DECODE32 (N = 32), `w64` is DECODE64 (N = 64).
As the 1-bit register `LAT_N` (R24), `w32` is 0 and `w64` is 1. -/
inductive Width where
  | w32
  | w64
  deriving DecidableEq, Repr, Inhabited

end Sys2Proof
end

