-- ==== Sys2Proof/Syntax.lean ====
section
/-!
DEFINITION. The commands of the block, one constructor per row of spec/opcode_table.json, and the two forms of the
address a host program writes.
-/
namespace Sys2Proof

/-- A command (R10, R66). The budget is the 4-bit field `CMD[3:0]` as it stands in the word (R60, R62), legal or not:
the table's rows match a word by `CMD[7:4]` alone, and ACCEPT tests legality (R64, R92).
The start address is no part of the command word; it comes on the port `CMD_ADDR` (R60, R65). -/
inductive Instr where
  /-- `0000 bbbb` (R140). -/
  | decode32 (budget : BitVec 4)
  /-- `0001 bbbb` (R120). -/
  | decode64 (budget : BitVec 4)
  deriving DecidableEq, Repr

/-- The address a host program writes for a command (R73): a number, or `RES_NEXT`, the previous command's result. -/
inductive AddrOperand where
  | imm (a : Nat)
  | resNext
  deriving DecidableEq, Repr

end Sys2Proof
end

