-- ==== Sys2Proof/WellFormed.lean ====
section
/-!
DEFINITION. Which commands are well formed: those whose budget is in the legal range 1 to 10 (R62, R64).
-/
namespace Sys2Proof

/-- The width a command selects (R61). -/
def Instr.width : Instr → Width
  | .decode32 _ => .w32
  | .decode64 _ => .w64

/-- The budget field of a command (R62). -/
def Instr.budget : Instr → BitVec 4
  | .decode32 b => b
  | .decode64 b => b

/-- The one check: the budget is 1 to 10 (R62, R64). -/
def Instr.wellFormed (i : Instr) : Bool :=
  decide (1 ≤ i.budget.toNat) && decide (i.budget.toNat ≤ 10)

end Sys2Proof
end

