-- ==== Sys2Proof/Decode.lean ====
section
/-!
DEFINITION. From command words to commands and back (R60 to R68, and spec/opcode_table.json).
-/
namespace Sys2Proof

/-- Why a word matches no row of the opcode map. -/
inductive DecodeError where
  /-- `RSV = CMD[7:5]` is not `000` (R63, R67). -/
  | reservedBits
  deriving DecidableEq, Repr

/-- Field `RSV = CMD[7:5]` (R60). -/
def fieldRsv (cmd : CmdWord) : BitVec 3 := cmd.extractLsb' 5 3

/-- Field `W = CMD[4]` (R60, R61). -/
def fieldW (cmd : CmdWord) : Width := if cmd.getLsbD 4 then .w64 else .w32

/-- Field `BUDGET = CMD[3:0]` (R60, R62). -/
def fieldBudget (cmd : CmdWord) : BitVec 4 := cmd.extractLsb' 0 4

/-- The legal range of a budget, 1 to 10 (R62, R64). -/
def legalBudget (b : BitVec 4) : Bool := decide (1 ≤ b.toNat) && decide (b.toNat ≤ 10)

/-- `Legal(CMD)` of R64. -/
def legalWord (cmd : CmdWord) : Bool :=
  decide (fieldRsv cmd = 0) && legalBudget (fieldBudget cmd)

/-- The opcode map of R66: each row is a match, a mask, and the command its BUDGET field makes.
A word with a reserved bit set matches neither row and is rejected by name (R63, R67). -/
def decode (cmd : CmdWord) : Except DecodeError Instr :=
  if cmd &&& 0xF0#8 = 0x00#8 then .ok (.decode32 (fieldBudget cmd))
  else if cmd &&& 0xF0#8 = 0x10#8 then .ok (.decode64 (fieldBudget cmd))
  else .error .reservedBits

/-- The word of a command: its row's match with the budget in `CMD[3:0]` (R60, R66, R73). -/
def encode : Instr → CmdWord
  | .decode32 b => 0x00#8 ||| b.setWidth 8
  | .decode64 b => 0x10#8 ||| b.setWidth 8

/-- The command the decoder reads from a word of the table, which gives each row 8 bits (one word, R60, R68). -/
def decodeTableWord (nbits w : Nat) : Option Instr :=
  if nbits ≤ 8 ∧ w < 2 ^ nbits then
    match decode (BitVec.ofNat 8 w) with
    | .ok i => some i
    | .error _ => none
  else none

end Sys2Proof
end

