-- ==== Sys2Proof/Config.lean ====
section
/-!
DEFINITION. What the spec leaves open: the address width (D2) and the free values of the registers the spec calls
unspecified (R33, R36). None of the opaque constants has a body, so no proof can see what one is.
-/
namespace Sys2Proof.Config

/-- The address width less one: the spec leaves `ADDR_W` OPEN, with `ADDR_W ≥ 1` (R5, D2). Log entry 1. -/
opaque addrWLessOne : Nat

/-- `ADDR_W` of the machine that `State.reset` describes: any number that is at least 1 (R5, D2). Log entry 1. -/
def addrW : Nat := addrWLessOne + 1

/-- What `ACC` holds after a completion or a reset: unspecified (R33, R36, R94). The argument counts the draws.
Log entries 5 and 6. -/
opaque freeAcc : Nat → BitVec 64

/-- What `IDX` holds after a completion or a reset: unspecified (R33, R36, R94). Log entries 5 and 6. -/
opaque freeIdx : Nat → BitVec 4

/-- What `LAT_N` holds after a reset: unspecified (R33, R180). Log entry 6. -/
opaque freeLatN : Nat → Width

/-- What `LAT_BUDGET` holds after a reset: unspecified (R33, R180). Log entry 6. -/
opaque freeLatBudget : Nat → BitVec 4

/-- What `LAT_BASE` holds after a reset, before it is cut to `ADDR_W` bits: unspecified (R33, R180). Log entry 6. -/
opaque freeLatBase : Nat → Nat

end Sys2Proof.Config
end

