-- ==== Sys2Proof/Machine/State.lean ====
section
/-!
DEFINITION. The state of the machine: one decoder instance's registers (R20 to R33), the block's ports (R21), the
byte-stream memory (R40) and what the host does next. All of it is plain data.
-/
namespace Sys2Proof.Machine

/-- `PHASE` (R23). -/
inductive Phase where
  | idle
  | busy
  deriving DecidableEq, Repr

/-- `RES_STATUS` (R27, R72). Its 3-bit codes are `Status.code` in Machine/Flags.lean; codes 5 to 7 are never produced,
so they are no constructors. -/
inductive Status where
  /-- no result: after reset and while a command runs -/
  | none
  /-- a terminator was found within the budget and the cap -/
  | ok
  /-- the 10th byte has its continuation bit set -/
  | overflow
  /-- byte b-1 has its continuation bit set, b < 10 -/
  | budgetExceeded
  /-- the command word is illegal -/
  | illegalCmd
  deriving DecidableEq, Repr

/-- The registers of one decoder instance (R20, R23 to R29). `Option` is the spec's own `⊥` (R28, R29, R35).
An address is a natural number below `2 ^ ADDR_W` (log entry 2). -/
structure Decoder where
  /-- `PHASE` (R23) -/
  phase : Phase
  /-- `LAT_N`, 1 bit (R24) -/
  latN : Width
  /-- `LAT_BUDGET`, 4 bits (R24) -/
  latBudget : BitVec 4
  /-- `LAT_BASE`, `ADDR_W` bits (R24) -/
  latBase : Nat
  /-- `ACC`, 64 bits (R25) -/
  acc : BitVec 64
  /-- `IDX`, 4 bits (R26) -/
  idx : BitVec 4
  /-- `RES_STATUS`, 3 bits (R27) -/
  resStatus : Status
  /-- `RES_VALUE`, 64 bits or `⊥` (R28) -/
  resValue : Option (BitVec 64)
  /-- `RES_LEN`, 4 bits or `⊥` (R29) -/
  resLen : Option (BitVec 4)
  /-- `RES_NEXT`, `ADDR_W` bits or `⊥` (R29) -/
  resNext : Option Nat
  /-- The model's own: how many free values this instance has drawn (log entry 5). No statement rests on it. -/
  draws : Nat
  deriving DecidableEq, Repr

/-- The byte stream (R40): (address, byte) pairs, addresses strictly rising. An address that is not listed holds no
byte the block may read: `Readable` is being listed (R41, log entry 3). -/
abbrev Memory := List Host.Cell

/-- What the host may read (R32, R91): `PHASE` through `cmd_ready`, and the four result registers. -/
inductive HostReg where
  | cmdReady
  | resStatus
  | resValue
  | resLen
  | resNext
  deriving DecidableEq, Repr

/-- What a READ returned (R91). -/
inductive Reading where
  | ready (v : BitVec 1)
  | status (v : BitVec 3)
  | value (v : BitVec 64)
  | len (v : BitVec 4)
  | next (v : Nat)
  deriving DecidableEq, Repr

/-- One move of the host or the environment, or its decision to leave the turn to the block (log entry 7). -/
inductive HostMove where
  /-- offer `CMD` and `CMD_ADDR` (R21, R91); while an earlier offer is still held, the block has the turn (R182) -/
  | offer (cmd : CmdWord) (addr : AddrOperand)
  /-- READ (R91) -/
  | read (r : HostReg)
  /-- place a byte in the stream and make it readable (R50, R181) -/
  | place (a : Nat) (b : Byte)
  /-- assert `rst` (R21, R180) -/
  | assertRst
  /-- release `rst` (R21, R180) -/
  | releaseRst
  /-- leave this turn to the block -/
  | wait
  /-- leave the turns to the block until `cmd_ready` is 1 and no offer is held (R169, R181) -/
  | await
  deriving DecidableEq, Repr

structure State where
  /-- `ADDR_W` (R5): a launch parameter, which no step changes (log entry 1) -/
  addrW : Nat
  /-- the decoder instance (R20) -/
  dec : Decoder
  /-- `cmd_valid` (R21) -/
  cmdValid : Bool
  /-- `CMD` (R21) -/
  cmd : CmdWord
  /-- `CMD_ADDR` (R21) -/
  cmdAddr : Nat
  /-- `rst` (R21) -/
  rst : Bool
  /-- the byte-stream memory (R40) -/
  mem : Memory
  /-- the model's own: the host's next moves, first one first (log entry 7) -/
  host : List HostMove
  /-- the model's own: what the host's last READ returned (log entry 13) -/
  lastRead : Option Reading
  deriving DecidableEq, Repr

/-- Why the machine stops. The chip itself reports none of these (R165). -/
inductive Fault where
  /-- Raised by a BYTE turn whose byte is not readable: the decoder has no step, it is stuck (R41, R91). Safe: the chip
  may go on with some byte, and then the model says nothing of it (log entry 3). -/
  | stuckUnreadable (a : Nat)
  /-- Raised by a host READ, or by an offer at `RES_NEXT`, of a register that holds `⊥` (R35, R73, R184). Safe: the spec
  gives the read no value (log entry 13). -/
  | readInvalid (r : HostReg)
  /-- Raised by a host write to a byte of a running command: the write has no move (R49, R165). Safe (log entry 14). -/
  | writeDuringCommand (a : Nat)
  /-- Raised by an offer or a host write at a number that is no `ADDR_W`-bit address (R40, R65). Safe (log entry 2). -/
  | noSuchAddress (a : Nat)
  deriving DecidableEq, Repr

/-- Why a step has no meaning. -/
inductive Refusal where
  /-- An arm of `exec` without a meaning. Nothing raises it: both commands are modelled. Safe. -/
  | notModelled (mnemonic : String)
  deriving DecidableEq, Repr

/-- The registers right after power-on reset (R33). `LAT_N`, `LAT_BUDGET`, `LAT_BASE`, `ACC` and `IDX` are unspecified
there; the model names zero for them (DESIGN CHOICE, unsafe, log entry 4). -/
def Decoder.initial : Decoder where
  phase := .idle
  latN := .w32
  latBudget := 0
  latBase := 0
  acc := 0
  idx := 0
  resStatus := .none
  resValue := none
  resLen := none
  resNext := none
  draws := 0

/-- The machine right after reset (R33, R180): nothing offered, nothing placed in the stream, no move of the host
pending (log entries 1, 3, 4, 7, 8, 13). -/
def State.reset : State where
  addrW := Config.addrW
  dec := Decoder.initial
  cmdValid := false
  cmd := 0
  cmdAddr := 0
  rst := false
  mem := []
  host := []
  lastRead := none

end Sys2Proof.Machine
end

