-- ==== Sys2Proof/Machine/Operands.lean ====
section
/-!
DEFINITION. The operands of a command: the parameters of R5, the widths and windows of R100, addresses (R43, R65),
the fields of a data byte (R70), and reading one byte of the stream (R41).
-/
namespace Sys2Proof.Machine

/-- `MAX_BYTES`, the hard cap on bytes read per command (R5). -/
def maxBytes : Nat := 10

/-- `GROUP_BITS`, the payload bits of one byte (R5). -/
def groupBits : Nat := 7

/-- `N`, the value width in bits (R5, R100). -/
abbrev widthBits : Width → Nat
  | .w32 => 32
  | .w64 => 64

/-- `K`, the accumulation window in bytes (R5, R100). -/
abbrev widthWindow : Width → Nat
  | .w32 => 5
  | .w64 => 10

/-- A number cut to `w` address bits: the `mod 2^ADDR_W` of R29 and R43. -/
def wrapAddr (w n : Nat) : Nat := n % 2 ^ w

/-- Whether a number is an address of `w` bits (R40, R65). -/
def isAddr (w a : Nat) : Bool := decide (a < 2 ^ w)

/-- `ea(i) = (LAT_BASE + i) mod 2^ADDR_W` (R43). -/
def ea (w base i : Nat) : Nat := wrapAddr w (base + i)

/-- `cont(byte) = byte[7]` (R70, R81). -/
def cont (b : Byte) : Bool := b.getLsbD 7

/-- The payload `byte[6:0]` (R70). -/
def payload (b : Byte) : BitVec 7 := b.extractLsb' 0 7

/-- `MemRead(a, 1)`: the byte at `a`, or nothing where `Readable(a)` is false (R41). -/
def Memory.read : Memory → Nat → Option Byte
  | [], _ => none
  | c :: rest, a => if c.1 = a then some c.2 else Memory.read rest a

/-- `Readable(a)` (R41). -/
def readable (m : Memory) (a : Nat) : Bool := (Memory.read m a).isSome

/-- The number a host program's address operand stands for (R73): `RES_NEXT` must be valid. -/
def operandAddr (d : Decoder) : AddrOperand → Except Fault Nat
  | .imm a => .ok a
  | .resNext =>
    match d.resNext with
    | some a => .ok a
    | none => .error (.readInvalid .resNext)

end Sys2Proof.Machine
end

