-- ==== Sys2Proof/Machine/Datapath.lean ====
section
/-!
DEFINITION. The byte_accumulator_pipeline (spec file 41): the wrapping value arithmetic. `BitVec` addition and shift
are the mod-2^N operations of R7.
-/
namespace Sys2Proof.Machine

/-- `contrib(N, i, byte) = shl_N(zext_N(byte[6:0]), 7*i)` (R101). -/
def contrib (n i : Nat) (b : Byte) : BitVec n := (payload b).setWidth n <<< (groupBits * i)

/-- `AccStep(N, acc, i, byte)` (R109): adds inside the window, and past it stops accumulating (R103). -/
def accStep (n : Width) (acc : BitVec (widthBits n)) (i : Nat) (b : Byte) : BitVec (widthBits n) :=
  if i < widthWindow n then acc + contrib (widthBits n) i b else acc

/-- `Fill(N, b)` (R105): ones from bit 7*b up, and nothing where N bits have no such position (D8, log entry 15). -/
def fill (n b : Nat) : BitVec n :=
  if groupBits * b < n then BitVec.allOnes n <<< (groupBits * b) else 0

/-- `Acc(N, m, byte)` (R102): the sum of the contributions of the first m bytes that lie in the window. -/
def accumulate (n : Width) : Nat → (Nat → Byte) → BitVec (widthBits n)
  | 0, _ => 0
  | m + 1, byte =>
    if m < widthWindow n then accumulate n m byte + contrib (widthBits n) m (byte m) else accumulate n m byte

/-- `Spec(N, b, byte) = Acc(N, b, byte) | Fill(N, b)` (R106). -/
def speculative (n : Width) (b : Nat) (byte : Nat → Byte) : BitVec (widthBits n) :=
  accumulate n b byte ||| fill (widthBits n) b

end Sys2Proof.Machine
end

