-- ==== Sys2Proof/Machine/Flags.lean ====
section
/-!
DEFINITION. The block has no flags and no condition codes (R31). Its only status indication is `RES_STATUS`: its
codes (R72) and `cmd_ready` (R21) stand here.
-/
namespace Sys2Proof.Machine

/-- The 3-bit code of each status (R72). -/
def Status.code : Status → BitVec 3
  | .none => 0
  | .ok => 1
  | .overflow => 2
  | .budgetExceeded => 3
  | .illegalCmd => 4

/-- `cmd_ready = (PHASE == IDLE)` (R21, R23). -/
def cmdReady (d : Decoder) : Bool := decide (d.phase = .idle)

end Sys2Proof.Machine
end

