-- ==== Sys2Proof/Machine/Ops.lean ====
section
/-!
DEFINITION. The shared operations: writing the stream, and the steps of R91 (ACCEPT, BYTE, READ, RESET) on one
decoder instance and on the state. The block takes no traps (R167), so taking an exception is completing with a
failure status (`Decoder.complete`), and there is no return from one (R168).
-/
namespace Sys2Proof.Machine

/-- The canonical form of a memory: addresses strictly rising. -/
def Memory.wf : Memory → Bool
  | [] => true
  | c :: rest => rest.all (fun d => decide (c.1 < d.1)) && Memory.wf rest

/-- The stream after the host has placed byte `b` at address `a` (R50, R181). The block itself never writes (R40). -/
def Memory.write : Memory → Nat → Byte → Memory
  | [], a, b => [(a, b)]
  | c :: rest, a, b =>
    if a < c.1 then (a, b) :: c :: rest
    else if a = c.1 then (a, b) :: rest
    else c :: Memory.write rest a b

/-- `complete(status, value, len, next)` (R94). `ACC` and `IDX` are left unspecified (R36): free values (log entry 5).
This is also how a failure is reported, in place of trap entry (R167). -/
def Decoder.complete (d : Decoder) (s : Status) (v : Option (BitVec 64)) (l : Option (BitVec 4)) (n : Option Nat) :
    Decoder :=
  { d with
    resStatus := s, resValue := v, resLen := l, resNext := n, phase := .idle,
    acc := Config.freeAcc d.draws, idx := Config.freeIdx d.draws, draws := d.draws + 1 }

/-- ACCEPT of an illegal command word: ILLEGAL_CMD, and nothing else of the instance changes (R64, R92, R164). -/
def Decoder.refuse (d : Decoder) : Decoder :=
  { d with resStatus := .illegalCmd, resValue := none, resLen := none, resNext := none }

/-- ACCEPT of a legal command (R92): latch it, clear `ACC` and `IDX`, clear the results, go BUSY. -/
def Decoder.start (d : Decoder) (n : Width) (b : BitVec 4) (addr : Nat) : Decoder :=
  { d with
    latN := n, latBudget := b, latBase := addr, acc := 0, idx := 0,
    resStatus := .none, resValue := none, resLen := none, resNext := none, phase := .busy }

/-- ACCEPT (R92) of the command with width `n` and budget field `b` at `CMD_ADDR = addr`. -/
def Decoder.accept (d : Decoder) (n : Width) (b : BitVec 4) (addr : Nat) : Decoder :=
  if legalBudget b then d.start n b addr else d.refuse

/-- ACCEPT (R92) of any command word: one that the decoder rejects has a reserved bit set and is illegal (R63, R64). -/
def Decoder.acceptWord (d : Decoder) (cmd : CmdWord) (addr : Nat) : Decoder :=
  match decode cmd with
  | .ok i => d.accept i.width i.budget addr
  | .error _ => d.refuse

/-- `rd_addr`, the address of the byte the decoder reads (R21, R43, R93). -/
def Decoder.rdAddr (d : Decoder) (w : Nat) : Nat := ea w d.latBase d.idx.toNat

/-- `AccStep(N, ACC[N-1:0], i, byte)` of the BYTE step (R93). -/
def Decoder.stage (d : Decoder) (byte : Byte) : BitVec (widthBits d.latN) :=
  accStep d.latN (d.acc.setWidth (widthBits d.latN)) d.idx.toNat byte

/-- The BYTE step (R93) once its byte is read, over `w` address bits. The tests stand in R85's order. -/
def Decoder.consume (d : Decoder) (w : Nat) (byte : Byte) : Decoder :=
  let i := d.idx.toNat
  let a := d.stage byte
  let d' := { d with acc := a.setWidth 64 }
  if cont byte = false then
    d'.complete .ok (some (a.setWidth 64)) (some (BitVec.ofNat 4 (i + 1))) (some (wrapAddr w (d.latBase + i + 1)))
  else if i = 9 then d'.complete .overflow none none none
  else if i + 1 = d.latBudget.toNat then
    d'.complete .budgetExceeded (some ((a ||| fill (widthBits d.latN) d.latBudget.toNat).setWidth 64)) none none
  else { d' with idx := d.idx + 1 }

/-- The BYTE step (R93) of a BUSY instance: it has a next state exactly where its byte is readable (R41, R91);
elsewhere the instance is stuck. -/
def Decoder.byteStep (d : Decoder) (w : Nat) (m : Memory) : Except Fault Decoder :=
  match Memory.read m (d.rdAddr w) with
  | some byte => .ok (d.consume w byte)
  | none => .error (.stuckUnreadable (d.rdAddr w))

/-- RESET (R33, R180) of an instance in any state. What R33 leaves unspecified is free (log entry 6). -/
def Decoder.reset (d : Decoder) (w : Nat) : Decoder where
  phase := .idle
  latN := Config.freeLatN d.draws
  latBudget := Config.freeLatBudget d.draws
  latBase := wrapAddr w (Config.freeLatBase d.draws)
  acc := Config.freeAcc d.draws
  idx := Config.freeIdx d.draws
  resStatus := .none
  resValue := none
  resLen := none
  resNext := none
  draws := d.draws + 1

/-- The command in flight, as the latch holds it (R24). -/
def Decoder.running (d : Decoder) : Instr :=
  match d.latN with
  | .w32 => .decode32 d.latBudget
  | .w64 => .decode64 d.latBudget

/-- READ (R91): what the host reads from a register. A register that holds `⊥` has no value and the read is a fault
(R35, log entry 13). -/
def Decoder.readReg (d : Decoder) : HostReg → Except Fault Reading
  | .cmdReady => .ok (.ready (BitVec.ofBool (cmdReady d)))
  | .resStatus => .ok (.status d.resStatus.code)
  | .resValue => match d.resValue with
    | some v => .ok (.value v)
    | none => .error (.readInvalid .resValue)
  | .resLen => match d.resLen with
    | some v => .ok (.len v)
    | none => .error (.readInvalid .resLen)
  | .resNext => match d.resNext with
    | some v => .ok (.next v)
    | none => .error (.readInvalid .resNext)

/-- Whether address `a` is one of `ea(0) .. ea(9)` of a running command, which no agent may write (R49). -/
def Decoder.inWindow (d : Decoder) (w a : Nat) : Bool :=
  decide (d.phase = .busy) && (List.range maxBytes).any (fun i => decide (ea w d.latBase i = a))

/-- The state with the instance's registers replaced. -/
def State.setDec (s : State) (d : Decoder) : State := { s with dec := d }

/-- The state after the block has taken the offered command off the port: `cmd_valid` falls (R21, log entry 8). -/
def State.takeOffer (s : State) : State := { s with cmdValid := false }

/-- The state with a command offered on the port (R21). -/
def State.setOffer (s : State) (cmd : CmdWord) (addr : Nat) : State :=
  { s with cmdValid := true, cmd := cmd, cmdAddr := addr }

/-- The state with `rst` driven (R21). -/
def State.setRst (s : State) (v : Bool) : State := { s with rst := v }

/-- The state with the byte stream replaced. -/
def State.setMem (s : State) (m : Memory) : State := { s with mem := m }

/-- The state with the host's next moves replaced. -/
def State.setHost (s : State) (h : List HostMove) : State := { s with host := h }

/-- The state with what the host's last READ returned. -/
def State.setLastRead (s : State) (r : Reading) : State := { s with lastRead := some r }

/-- A command at the block while it is not in reset: offered to an IDLE instance it is accepted (R92); offered to a
BUSY one it is held, and the machine's step is the BYTE step of the command in flight (R91, R93, R182, log entry 10). -/
def command (n : Width) (b : BitVec 4) (s : State) : Host.Outcome State Fault Refusal :=
  match s.dec.phase with
  | .idle => .next ((s.setDec (s.dec.accept n b s.cmdAddr)).takeOffer)
  | .busy =>
    match s.dec.byteStep s.addrW s.mem with
    | .ok d => .next (s.setDec d)
    | .error f => .fault f

/-- ACCEPT of an offered word that is no command (R64, R92). -/
def refuseOffer (s : State) : State := (s.setDec s.dec.refuse).takeOffer

/-- RESET of the block (R180): the ports, the stream and the host are no registers of it. -/
def resetBlock (s : State) : State := s.setDec (s.dec.reset s.addrW)

end Sys2Proof.Machine
end

