-- ==== Sys2Proof/Machine/Decode32.lean ====
section
/-!
DEFINITION. varint_decoder_32: the meaning of DECODE32 (spec file 43).
-/
namespace Sys2Proof.Machine

/-- DECODE32 (R140 to R144): ACCEPT with `LAT_N = 0` and then its BYTE steps with N = 32, K = 5 (R92, R93). -/
def execDecode32 (budget : BitVec 4) (s : State) : Host.Outcome State Fault Refusal :=
  command .w32 budget s

end Sys2Proof.Machine
end

