-- ==== Sys2Proof/Machine/Decode64.lean ====
section
/-!
DEFINITION. varint_decoder_64: the meaning of DECODE64 (spec file 42).
-/
namespace Sys2Proof.Machine

/-- DECODE64 (R120 to R125): ACCEPT with `LAT_N = 1` and then its BYTE steps with N = 64, K = 10 (R92, R93). -/
def execDecode64 (budget : BitVec 4) (s : State) : Host.Outcome State Fault Refusal :=
  command .w64 budget s

end Sys2Proof.Machine
end

