-- ==== Sys2Proof/Machine/Dispatch.lean ====
section
/-! DEFINITION. One arm per command of the opcode map (R66). -/
namespace Sys2Proof.Machine

def exec (i : Instr) (s : State) : Host.Outcome State Fault Refusal :=
  match i with
  | .decode32 budget => Sys2Proof.Machine.execDecode32 budget s
  | .decode64 budget => Sys2Proof.Machine.execDecode64 budget s

end Sys2Proof.Machine
end

