-- ==== Sys2Proof/Machine/Turn.lean ====
section
/-!
DEFINITION. Whose turn it is, and what it does: the block's turn (RESET, BYTE or ACCEPT, R91) and the host's moves
(offering a command, READ, placing bytes, driving `rst`). Machine/Step.lean only calls this.
-/
namespace Sys2Proof.Machine

/-- The block's turn (R91). While `rst` is asserted it is RESET (R180). A BUSY instance runs the command in flight. An
IDLE one accepts the offered word; with nothing offered no transition is enabled and the state stays (log entry 16). -/
def blockTurn (s : State) : Host.Outcome State Fault Refusal :=
  if s.rst then .next (resetBlock s)
  else match s.dec.phase with
    | .busy => exec s.dec.running s
    | .idle =>
      if s.cmdValid then
        match decode s.cmd with
        | .ok i => exec i s
        | .error _ => .next (refuseOffer s)
      else .next s

/-- The host offers a command at a number or at `RES_NEXT` (R21, R73). The port has `ADDR_W` bits (R65). -/
def offerCommand (cmd : CmdWord) (op : AddrOperand) (s : State) : Host.Outcome State Fault Refusal :=
  match operandAddr s.dec op with
  | .error f => .fault f
  | .ok a => if isAddr s.addrW a then .next (s.setOffer cmd a) else .fault (.noSuchAddress a)

/-- The host reads a register (R91): no state of the block changes. -/
def hostRead (r : HostReg) (s : State) : Host.Outcome State Fault Refusal :=
  match s.dec.readReg r with
  | .ok v => .next (s.setLastRead v)
  | .error f => .fault f

/-- The host writes a byte of the stream (R50, R181). A write to a running command's bytes has no move (R49). -/
def placeByte (a : Nat) (b : Byte) (s : State) : Host.Outcome State Fault Refusal :=
  if isAddr s.addrW a = false then .fault (.noSuchAddress a)
  else if s.dec.inWindow s.addrW a then .fault (.writeDuringCommand a)
  else .next (s.setMem (Memory.write s.mem a b))

/-- One step. The head of `host` says who has the turn: a move of the host is taken and leaves the list; `wait`,
`await`, and an offer that must wait for an earlier one leave the turn to the block; so does the empty list
(log entry 7). Asserting `rst` resets the block at once (R180, log entry 9). -/
def turn (s : State) : Host.Outcome State Fault Refusal :=
  match s.host with
  | [] => blockTurn s
  | .wait :: rest => blockTurn (s.setHost rest)
  | .await :: rest =>
    if cmdReady s.dec && !s.cmdValid then .next (s.setHost rest) else blockTurn s
  | .offer cmd op :: rest =>
    if s.cmdValid then blockTurn s else offerCommand cmd op (s.setHost rest)
  | .read r :: rest => hostRead r (s.setHost rest)
  | .place a b :: rest => placeByte a b (s.setHost rest)
  | .assertRst :: rest => .next ((resetBlock (s.setHost rest)).setRst true)
  | .releaseRst :: rest => .next ((s.setHost rest).setRst false)

/-- The state in which the host offers the table word `w` at address 0 to an IDLE block that has the next turn. -/
def offerTableWord (s : State) (nbits w : Nat) : State :=
  { s with
    dec := { s.dec with phase := .idle },
    cmdValid := true, cmd := BitVec.ofNat 8 (w % 2 ^ nbits), cmdAddr := 0, rst := false, host := [] }

end Sys2Proof.Machine
end

