-- ==== Sys2Proof/Machine/Step.lean ====
section
/-!
DEFINITION. One step of the machine, and the state whose next step runs a given command word. The block fetches no
instructions (R30, R52): a command comes on its port, so `withFetchWord` offers it there (log entry 12).
-/
namespace Sys2Proof.Machine

def step (s : State) : Host.Outcome State Fault Refusal := turn s

def State.withFetchWord (s : State) (nbits w : Nat) : State := offerTableWord s nbits w

end Sys2Proof.Machine
end

