-- ==== Sys2Proof/Machine/Assembler.lean ====
section
/-!
DEFINITION. The assembler syntax of host command sequences (R73, R74): a line of text to the command word and the
address operand, and a program to the host's moves. Where R73 is silent on the spelling the text functions choose:
number forms (log entry 21), the case of `b=`, `RES_NEXT` and `0x` (log entry 23), and blanks (log entry 24).
-/
namespace Sys2Proof.Machine

/-- One assembler line: `decode64 b=<budget>, [<addr>]` or `decode32 …`; no `b=` is the pseudo-instruction (R74). -/
structure AsmLine where
  width : Width
  budget : Option Nat
  addr : AddrOperand
  deriving DecidableEq, Repr

/-- The default budget (R74). -/
def defaultBudget : Nat := 10

/-- The command word and address of a line. The assembler refuses a budget outside 1 to 10 (R73). -/
def assemble (l : AsmLine) : Option (CmdWord × AddrOperand) :=
  let b := l.budget.getD defaultBudget
  if 1 ≤ b ∧ b ≤ 10 then
    match l.width with
    | .w32 => some (encode (.decode32 (BitVec.ofNat 4 b)), l.addr)
    | .w64 => some (encode (.decode64 (BitVec.ofNat 4 b)), l.addr)
  else none

/-- The host's moves for a program: each command is offered and its completion awaited, so that `RES_NEXT` on the next
line is the result of the line before (R30, R73). -/
def assembleProgram : List AsmLine → Option (List HostMove)
  | [] => some []
  | l :: ls =>
    match assemble l, assembleProgram ls with
    | some (cmd, op), some ms => some (.offer cmd op :: .await :: ms)
    | _, _ => none

/-- A line without its comment, which runs from `;` to the end (R73). -/
def dropComment : List Char → List Char
  | [] => []
  | c :: cs => if c = ';' then [] else c :: dropComment cs

/-- A text without its leading blanks. That a blank is a space or a tab is the model's choice (DESIGN CHOICE, log
entry 24). -/
def dropBlanks : List Char → List Char
  | [] => []
  | c :: cs => if c = ' ' ∨ c = '\t' then dropBlanks cs else c :: cs

/-- A capital letter as its small one: mnemonics are case-insensitive (R73). The model folds the case of every other
letter of a line too (DESIGN CHOICE, log entry 23). -/
def lowerChar (c : Char) : Char :=
  if 65 ≤ c.toNat ∧ c.toNat ≤ 90 then Char.ofNat (c.toNat + 32) else c

/-- What follows `word` at the head of the text, in any case. R73 says so of mnemonics alone; `b=`, `RES_NEXT` and `0x`
go through here too and so are taken in any case (DESIGN CHOICE, log entry 23). -/
def dropWord : List Char → List Char → Option (List Char)
  | [], cs => some cs
  | _ :: _, [] => none
  | w :: ws, c :: cs => if lowerChar c = w then dropWord ws cs else none

/-- The value of a digit in a base of 10 or 16. A hexadecimal digit may be of either case (DESIGN CHOICE, log
entry 23). -/
def digitVal (base : Nat) (c : Char) : Option Nat :=
  let n := (lowerChar c).toNat
  if 48 ≤ n ∧ n ≤ 57 then some (n - 48)
  else if base = 16 ∧ 97 ≤ n ∧ n ≤ 102 then some (n - 87)
  else none

/-- The digits at the head of the text, after the value `acc`. -/
def digitsFrom (base : Nat) : Nat → List Char → Nat × List Char
  | acc, [] => (acc, [])
  | acc, c :: cs =>
    match digitVal base c with
    | some d => digitsFrom base (acc * base + d) cs
    | none => (acc, c :: cs)

/-- A number of at least one digit in the given base. -/
def numberIn (base : Nat) : List Char → Option (Nat × List Char)
  | [] => none
  | c :: cs =>
    match digitVal base c with
    | some d => some (digitsFrom base d cs)
    | none => none

/-- The address between the brackets: `RES_NEXT` or a number, hexadecimal after `0x`, else decimal (log entry 21).
`RES_NEXT` and `0x` are taken in any case (DESIGN CHOICE, log entry 23). -/
def parseAddr (cs : List Char) : Option (AddrOperand × List Char) :=
  match dropWord ['r', 'e', 's', '_', 'n', 'e', 'x', 't'] cs with
  | some rest => some (.resNext, rest)
  | none =>
    match dropWord ['0', 'x'] cs with
    | some rest => (numberIn 16 rest).map (fun p => (.imm p.1, p.2))
    | none => (numberIn 10 cs).map (fun p => (.imm p.1, p.2))

/-- `[<addr>]` up to the end of the line. Blanks may stand before and after each bracket (DESIGN CHOICE, log
entry 24). -/
def parseBracket (n : Width) (b : Option Nat) (cs : List Char) : Option AsmLine :=
  match dropBlanks cs with
  | '[' :: rest =>
    match parseAddr (dropBlanks rest) with
    | none => none
    | some (op, rest') =>
      match dropBlanks rest' with
      | ']' :: tail => if dropBlanks tail = [] then some ⟨n, b, op⟩ else none
      | _ => none
  | _ => none

/-- The operands after a mnemonic: `b=<budget>, [<addr>]` or `[<addr>]` (R73, R74). R73 is silent on blanks and on the
case of `b=`. No blank is needed after the mnemonic, so `decode64[0]` and `decode64b=4,[0]` are lines; blanks may stand
before `b=` and around the comma, and none around the `=` (DESIGN CHOICE, log entry 24). `B=` is taken as `b=` (DESIGN
CHOICE, log entry 23). -/
def parseOperands (n : Width) (cs : List Char) : Option AsmLine :=
  match dropWord ['b', '='] (dropBlanks cs) with
  | none => parseBracket n none cs
  | some rest =>
    match numberIn 10 rest with
    | none => none
    | some (b, rest') =>
      match dropBlanks rest' with
      | ',' :: tail => parseBracket n (some b) tail
      | _ => none

/-- One line of text (R73). The outer `none` is a line that is no assembler line; the inner one a blank or
comment line. Blanks may stand before the mnemonic, and a line may be empty (DESIGN CHOICE, log entry 24). -/
def parseLine (line : List Char) : Option (Option AsmLine) :=
  match dropBlanks (dropComment line) with
  | [] => some none
  | cs =>
    match dropWord ['d', 'e', 'c', 'o', 'd', 'e', '6', '4'] cs with
    | some rest => (parseOperands .w64 rest).map some
    | none =>
      match dropWord ['d', 'e', 'c', 'o', 'd', 'e', '3', '2'] cs with
      | some rest => (parseOperands .w32 rest).map some
      | none => none

end Sys2Proof.Machine
end

