-- ==== Sys2Proof/Machine/Instances.lean ====
section
/-!
DEFINITION. Several decoder instances over one byte stream (R20, R172, D21): each has its own registers, and they
share nothing but the stream. A schedule of moves says which instance takes which transition of R91; a move that is
not enabled has no successor. Each move is the operation of Machine/Ops.lean that the one-instance machine uses.
-/
namespace Sys2Proof.Machine

/-- The instances, the stream they share, and the address width. -/
structure System where
  addrW : Nat
  mem : Memory
  decs : List Decoder
  deriving DecidableEq, Repr

/-- A transition of one instance, or a host write to the shared stream. -/
inductive SysMove where
  | accept (k : Nat) (cmd : CmdWord) (addr : Nat)
  | byte (k : Nat)
  | reset (k : Nat)
  | place (a : Nat) (b : Byte)
  deriving DecidableEq, Repr

/-- One move; nothing where it is not enabled: ACCEPT needs IDLE, BYTE needs BUSY and a readable byte (R91), and no
byte of any running command may be written (R49). -/
def sysMove (sys : System) : SysMove → Option System
  | .accept k cmd addr =>
    match sys.decs[k]? with
    | none => none
    | some d =>
      if d.phase = .idle ∧ isAddr sys.addrW addr = true then
        some { sys with decs := sys.decs.set k (d.acceptWord cmd addr) }
      else none
  | .byte k =>
    match sys.decs[k]? with
    | none => none
    | some d =>
      if d.phase = .busy then
        match d.byteStep sys.addrW sys.mem with
        | .ok d' => some { sys with decs := sys.decs.set k d' }
        | .error _ => none
      else none
  | .reset k =>
    match sys.decs[k]? with
    | none => none
    | some d => some { sys with decs := sys.decs.set k (d.reset sys.addrW) }
  | .place a b =>
    if isAddr sys.addrW a = true ∧ sys.decs.all (fun d => !d.inWindow sys.addrW a) = true then
      some { sys with mem := Memory.write sys.mem a b }
    else none

/-- A whole schedule of moves. -/
def sysRun : List SysMove → System → Option System
  | [], sys => some sys
  | m :: ms, sys =>
    match sysMove sys m with
    | none => none
    | some sys' => sysRun ms sys'

/-- A move as it concerns instance `k` alone: its own moves, and the host's writes; the others' moves drop out. -/
def SysMove.alone (k : Nat) : SysMove → Option SysMove
  | .accept j cmd addr => if j = k then some (.accept 0 cmd addr) else none
  | .byte j => if j = k then some (.byte 0) else none
  | .reset j => if j = k then some (.reset 0) else none
  | .place a b => some (.place a b)

end Sys2Proof.Machine
end

