-- ==== Sys2Proof/Machine/Transaction.lean ====
section
/-!
DEFINITION. The pure functions of spec file 40: the scan (R85) and `Decode` (R89), the normative result of a legal
command. The step machine (Machine/Ops.lean) computes the same result one byte per step (R95).
-/
namespace Sys2Proof.Machine

/-- The three outcomes of a scan (R85). -/
inductive ScanResult where
  | term (i : Nat)
  | ovf
  | bud
  deriving DecidableEq, Repr

/-- The loop of R85 from index `10 - fuel` on: termination, then the cap, then the budget. -/
def scanFrom (b : Nat) (byte : Nat → Byte) : Nat → ScanResult
  | 0 => .ovf
  | fuel + 1 =>
    let i := maxBytes - (fuel + 1)
    if cont (byte i) = false then .term i
    else if i = 9 then .ovf
    else if i + 1 = b then .bud
    else scanFrom b byte fuel

/-- `Scan(b, byte)` (R85). -/
def scan (b : Nat) (byte : Nat → Byte) : ScanResult := scanFrom b byte maxBytes

/-- How many bytes a scan reads (R45, R85): indices `0 .. m-1`. -/
def scanReads (b : Nat) : ScanResult → Nat
  | .term i => i + 1
  | .ovf => maxBytes
  | .bud => b

/-- What `Decode` returns (R89). -/
structure DecodeResult (n : Nat) where
  status : Status
  value : Option (BitVec n)
  len : Option Nat
  next : Option Nat
  deriving DecidableEq, Repr

/-- The loop of R89 at index `i` with the partial value `acc`, at most `fuel` more bytes. No result where a byte is
not readable. -/
def decodeFrom (n : Width) (b w base : Nat) (m : Memory) :
    Nat → Nat → BitVec (widthBits n) → Option (DecodeResult (widthBits n))
  | 0, _, _ => none
  | fuel + 1, i, acc =>
    match Memory.read m (ea w base i) with
    | none => none
    | some byte =>
      let a := accStep n acc i byte
      if cont byte = false then some ⟨.ok, some a, some (i + 1), some (wrapAddr w (base + i + 1))⟩
      else if i = 9 then some ⟨.overflow, none, none, none⟩
      else if i + 1 = b then some ⟨.budgetExceeded, some (a ||| fill (widthBits n) b), none, none⟩
      else decodeFrom n b w base m fuel (i + 1) a

/-- `Decode(N, b, A)` (R89), over the stream `m` and `w` address bits. -/
def decodeTransaction (n : Width) (b w base : Nat) (m : Memory) : Option (DecodeResult (widthBits n)) :=
  decodeFrom n b w base m maxBytes 0 0

end Sys2Proof.Machine
end

