-- ==== Sys2Proof/Safety.lean ====
section
/-!
DEFINITION. The terms in which claims are stated: the invariant of the machine, the host's duties, and runs of
several steps.
-/
namespace Sys2Proof.Machine

/-- What holds of the registers of an instance, over `w` address bits, in every state that a run reaches. -/
structure Decoder.Inv (w : Nat) (d : Decoder) : Prop where
  /-- `LAT_BASE` is an address (R24). -/
  baseFits : d.latBase < 2 ^ w
  /-- The latched budget of a running command is legal (R24, R64). -/
  budgetLegal : d.phase = .busy → 1 ≤ d.latBudget.toNat ∧ d.latBudget.toNat ≤ 10
  /-- The next byte's index is within the budget (R26, R46). -/
  idxBelowBudget : d.phase = .busy → d.idx.toNat < d.latBudget.toNat
  /-- The results are invalid while a command runs (R23, R27, R183). -/
  noResultWhileBusy : d.phase = .busy → d.resStatus = .none
  /-- Under DECODE32 the upper half of `ACC` stays 0 (R25). -/
  accIsWord32 : d.phase = .busy → d.latN = .w32 → d.acc.toNat < 2 ^ 32
  /-- The partial value has no bit at position 7*IDX or above (R104, R107). -/
  accBelowIndex : d.phase = .busy → d.acc.toNat < 2 ^ (7 * d.idx.toNat)
  /-- `RES_VALUE` is valid exactly after OK and BUDGET_EXCEEDED (R28). -/
  valueValid : d.resValue.isSome = true ↔ (d.resStatus = .ok ∨ d.resStatus = .budgetExceeded)
  /-- `RES_LEN` is valid exactly after OK (R29). -/
  lenValid : d.resLen.isSome = true ↔ d.resStatus = .ok
  /-- `RES_NEXT` is valid exactly after OK (R29). -/
  nextValid : d.resNext.isSome = true ↔ d.resStatus = .ok
  /-- The number of bytes consumed is 1 to 10, and within the budget (R29, R46). -/
  lenRange : ∀ l, d.resLen = some l → 1 ≤ l.toNat ∧ l.toNat ≤ 10 ∧ l.toNat ≤ d.latBudget.toNat
  /-- `RES_NEXT = (LAT_BASE + RES_LEN) mod 2^ADDR_W` (R29). -/
  nextIsBasePlusLen : ∀ l n, d.resLen = some l → d.resNext = some n → n = (d.latBase + l.toNat) % 2 ^ w
  /-- After DECODE32 the upper half of `RES_VALUE` is 0 (R28). -/
  valueIsWord32 : ∀ v, d.resValue = some v → d.latN = .w32 → v.toNat < 2 ^ 32

/-- What holds in every state that a run reaches. -/
structure State.Inv (s : State) : Prop where
  /-- `ADDR_W ≥ 1` (R5). -/
  addrWPos : 1 ≤ s.addrW
  /-- The stream is in canonical form. -/
  memWf : Memory.wf s.mem = true
  /-- Every listed byte has an address of the address space (R40). -/
  memFits : ∀ c ∈ s.mem, c.1 < 2 ^ s.addrW
  /-- `CMD_ADDR` is an address (R65). -/
  portFits : s.cmdAddr < 2 ^ s.addrW
  /-- While `rst` is asserted the block is IDLE and has no result (R180). -/
  resetHeld : s.rst = true → s.dec.phase = .idle ∧ s.dec.resStatus = .none
  /-- The instance's own invariant. -/
  decInv : Decoder.Inv s.addrW s.dec

/-- The block has the turn and is IDLE, and the host offers command `i` (R21, R91). -/
structure State.Offers (s : State) (i : Instr) : Prop where
  turnIsBlocks : s.host = []
  notInReset : s.rst = false
  idle : s.dec.phase = .idle
  valid : s.cmdValid = true
  word : s.cmd = encode i

/-- The byte at index `j` of a command that starts at `base`, where it is readable (R41, R43). -/
def State.streamByte (s : State) (base j : Nat) : Option Byte :=
  Memory.read s.mem ((base + j) % 2 ^ s.addrW)

/-- The bytes of the stream from `base` on, for the pure functions of R85 and R102; a statement uses an index of it
only where that byte is readable. -/
def State.stream (s : State) (base j : Nat) : Byte := (s.streamByte base j).getD 0

/-- The caller's obligation (R47) for a command with budget `b` at `base`, in its two sufficient forms. -/
def State.CallerDuty (s : State) (base b : Nat) : Prop :=
  (∀ j, j < min b 10 → (s.streamByte base j).isSome = true) ∨
  (∃ t, t < 10 ∧ (∀ j, j ≤ t → (s.streamByte base j).isSome = true) ∧ cont (s.stream base t) = false)

/-- `k` steps of the machine, stopping at the first fault or refusal. -/
def runSteps : Nat → State → Host.Outcome State Fault Refusal
  | 0, s => .next s
  | k + 1, s =>
    match step s with
    | .next t => runSteps k t
    | .fault f => .fault f
    | .refused r => .refused r

/-- Two instances show the host the same: `cmd_ready` and the four result registers (R32). -/
def Decoder.SameView (d e : Decoder) : Prop :=
  d.phase = e.phase ∧ d.resStatus = e.resStatus ∧ d.resValue = e.resValue ∧ d.resLen = e.resLen ∧
    d.resNext = e.resNext

end Sys2Proof.Machine
end

