-- ==== Sys2Proof/Certificates/Slice0/Obligations.lean ====
section
/-!
DEFINITION. The statements for the provers. Each docstring names the rule of spec/ it formalises.
-/
open Sys2Proof Sys2Proof.Machine

/-! ### Encoding -/

/-- R66: the two rows of the opcode map, and the 20 legal command words. -/
def Obligations.OpcodeMapAndLegalWords : Prop :=
  ∀ cmd : CmdWord,
    (decode cmd = .ok (.decode32 (cmd.extractLsb' 0 4)) ↔ cmd &&& 0xF0 = 0x00) ∧
    (decode cmd = .ok (.decode64 (cmd.extractLsb' 0 4)) ↔ cmd &&& 0xF0 = 0x10) ∧
    (legalWord cmd = true ↔
      (0x01 ≤ cmd.toNat ∧ cmd.toNat ≤ 0x0A) ∨ (0x11 ≤ cmd.toNat ∧ cmd.toNat ≤ 0x1A))

/-- R60 to R66: decoding an encoded command gives it back with every budget; a decoded word is the encoding of its
command; the fields stand where R60 puts them; and the legal words are the encodings of the well-formed commands. -/
def Obligations.DecodeAndEncodeAgree : Prop :=
  (∀ i : Instr, decode (encode i) = .ok i ∧ (encode i).extractLsb' 5 3 = 0 ∧
    (encode i).getLsbD 4 = decide (i.width = .w64) ∧ (encode i).extractLsb' 0 4 = i.budget) ∧
  (∀ (cmd : CmdWord) (i : Instr), decode cmd = .ok i → encode i = cmd) ∧
  (∀ cmd : CmdWord, legalWord cmd = true ↔ ∃ i : Instr, i.wellFormed = true ∧ encode i = cmd)

/-- A few words of R66, R67 and table 2.1 of the test vectors. -/
def Obligations.SampleWordsDecode : Prop :=
  decode 0x01 = .ok (.decode32 1) ∧ decode 0x05 = .ok (.decode32 5) ∧ decode 0x0A = .ok (.decode32 10) ∧
  decode 0x11 = .ok (.decode64 1) ∧ decode 0x14 = .ok (.decode64 4) ∧ decode 0x1A = .ok (.decode64 10) ∧
  decode 0x20 = .error .reservedBits ∧ decode 0x9A = .error .reservedBits ∧ decode 0xFF = .error .reservedBits ∧
  legalWord 0x10 = false ∧ legalWord 0x0B = false ∧ legalWord 0x1F = false

/-- A word the table's decoder reads is the command the very next step runs, at address 0, whatever the state was
(log entry 12). -/
def Obligations.TableWordIsTheNextCommand : Prop :=
  ∀ (s : State) (w : Nat) (i : Instr), w < 256 → decodeTableWord 8 w = some i →
    step (s.withFetchWord 8 w) = exec i (s.withFetchWord 8 w) ∧ (s.withFetchWord 8 w).Offers i

/-! ### Steps and commands -/

/-- R21, R91: when the block has the turn, is IDLE and is offered a word that decodes to `i`, the step is `exec i`. -/
def Obligations.StepRunsTheOfferedCommand : Prop :=
  ∀ (s : State) (i : Instr), s.host = [] → s.rst = false → s.dec.phase = .idle → s.cmdValid = true →
    decode s.cmd = .ok i → step s = exec i s

/-- R24, R91: when the block has the turn and is BUSY, the step is `exec` of the command in the latch. -/
def Obligations.StepRunsTheCommandInFlight : Prop :=
  ∀ s : State, s.host = [] → s.rst = false → s.dec.phase = .busy →
    (s.dec.latN = .w32 → step s = exec (.decode32 s.dec.latBudget) s) ∧
    (s.dec.latN = .w64 → step s = exec (.decode64 s.dec.latBudget) s)

/-- The model's `wait` leaves the turn to the block, and with nothing to do the block's state stays
(log entries 7 and 16). -/
def Obligations.WaitLeavesTheTurnToTheBlock : Prop :=
  ∀ (s : State) (rest : List HostMove), s.host = .wait :: rest →
    step s = blockTurn { s with host := rest } ∧
    (s.rst = false → s.dec.phase = .idle → s.cmdValid = false → step s = .next { s with host := rest })

/-- R92: ACCEPT of either command by an IDLE block, legal or not. Nothing is asked of the stream: no byte is read. -/
def Obligations.AcceptFollowsItsRule : Prop :=
  ∀ (i : Instr) (s : State), s.dec.phase = .idle →
    (1 ≤ i.budget.toNat ∧ i.budget.toNat ≤ 10 →
      ∃ t, exec i s = .next t ∧ t.mem = s.mem ∧
        t.dec = { s.dec with
          latN := i.width, latBudget := i.budget, latBase := s.cmdAddr, acc := 0, idx := 0,
          resStatus := .none, resValue := none, resLen := none, resNext := none, phase := .busy }) ∧
    (¬(1 ≤ i.budget.toNat ∧ i.budget.toNat ≤ 10) →
      ∃ t, exec i s = .next t ∧ t.mem = s.mem ∧
        t.dec = { s.dec with resStatus := .illegalCmd, resValue := none, resLen := none, resNext := none })

/-- R21 and the model's choice of log entry 8: ACCEPT takes the offer off the port, and nothing but `cmd_valid` and the
instance's registers changes. -/
def Obligations.AcceptTakesTheOffer : Prop :=
  ∀ (i : Instr) (s : State), s.dec.phase = .idle →
    ∃ d : Decoder, exec i s = .next { s with cmdValid := false, dec := d }

/-- R64, R67, R164: an illegal word, whether its budget or a reserved bit makes it so, is refused with ILLEGAL_CMD; no
byte is read (nothing is asked of the stream) and nothing but the result registers changes, the offer being taken off
the port (log entry 8). The block stays IDLE, ready for the next command. -/
def Obligations.IllegalWordsGiveIllegalCmd : Prop :=
  ∀ s : State, s.host = [] → s.rst = false → s.dec.phase = .idle → s.cmdValid = true →
    ¬(s.cmd.extractLsb' 5 3 = 0 ∧ 1 ≤ (s.cmd.extractLsb' 0 4).toNat ∧ (s.cmd.extractLsb' 0 4).toNat ≤ 10) →
    step s = .next { s with
      cmdValid := false,
      dec := { s.dec with resStatus := .illegalCmd, resValue := none, resLen := none, resNext := none } }

/-- R93: the BYTE step, whatever command the host may be holding on the port, in each of its four cases; the latch and
everything outside the instance stay. `ACC` and `IDX` after a completion are left open (R36). -/
def Obligations.ByteStepFollowsItsRule : Prop :=
  ∀ (i : Instr) (s : State) (byte : Byte), s.dec.phase = .busy →
    Memory.read s.mem ((s.dec.latBase + s.dec.idx.toNat) % 2 ^ s.addrW) = some byte →
    let k := s.dec.idx.toNat
    let a := accStep s.dec.latN (s.dec.acc.setWidth (widthBits s.dec.latN)) k byte
    ∃ d : Decoder, exec i s = .next { s with dec := d } ∧
      d.latN = s.dec.latN ∧ d.latBudget = s.dec.latBudget ∧ d.latBase = s.dec.latBase ∧
      (if byte.getLsbD 7 = false then
        d.phase = .idle ∧ d.resStatus = .ok ∧ d.resValue = some (a.setWidth 64) ∧
          d.resLen = some (BitVec.ofNat 4 (k + 1)) ∧ d.resNext = some ((s.dec.latBase + k + 1) % 2 ^ s.addrW)
      else if k = 9 then
        d.phase = .idle ∧ d.resStatus = .overflow ∧ d.resValue = none ∧ d.resLen = none ∧ d.resNext = none
      else if k + 1 = s.dec.latBudget.toNat then
        d.phase = .idle ∧ d.resStatus = .budgetExceeded ∧
          d.resValue = some ((a ||| fill (widthBits s.dec.latN) s.dec.latBudget.toNat).setWidth 64) ∧
          d.resLen = none ∧ d.resNext = none
      else d = { s.dec with acc := a.setWidth 64, idx := BitVec.ofNat 4 (k + 1) })

/-- R93 for DECODE64 with its arithmetic written out: the terminating byte delivers the result. -/
def Obligations.Decode64DeliversItsResult : Prop :=
  ∀ (budget : BitVec 4) (s : State) (byte : Byte),
    s.dec.phase = .busy → s.dec.latN = .w64 → s.dec.latBudget = budget → s.dec.idx.toNat ≤ 9 →
    Memory.read s.mem ((s.dec.latBase + s.dec.idx.toNat) % 2 ^ s.addrW) = some byte → byte.toNat < 128 →
    ∃ t : State, exec (.decode64 budget) s = .next t ∧ t.dec.phase = .idle ∧ t.dec.resStatus = .ok ∧
      (t.dec.resValue.map BitVec.toNat) =
        some ((s.dec.acc.toNat + byte.toNat * 2 ^ (7 * s.dec.idx.toNat)) % 2 ^ 64) ∧
      (t.dec.resLen.map BitVec.toNat) = some (s.dec.idx.toNat + 1) ∧
      t.dec.resNext = some ((s.dec.latBase + s.dec.idx.toNat + 1) % 2 ^ s.addrW)

/-- R93, R103 for DECODE32 with its arithmetic written out: the terminating byte delivers the result, and from index 5
on its payload does not enter the value. -/
def Obligations.Decode32DeliversItsResult : Prop :=
  ∀ (budget : BitVec 4) (s : State) (byte : Byte),
    s.dec.phase = .busy → s.dec.latN = .w32 → s.dec.latBudget = budget → s.dec.idx.toNat ≤ 9 →
    Memory.read s.mem ((s.dec.latBase + s.dec.idx.toNat) % 2 ^ s.addrW) = some byte → byte.toNat < 128 →
    ∃ t : State, exec (.decode32 budget) s = .next t ∧ t.dec.phase = .idle ∧ t.dec.resStatus = .ok ∧
      (t.dec.resValue.map BitVec.toNat) =
        some (if s.dec.idx.toNat < 5 then
            (s.dec.acc.toNat + byte.toNat * 2 ^ (7 * s.dec.idx.toNat)) % 2 ^ 32
          else s.dec.acc.toNat % 2 ^ 32) ∧
      (t.dec.resLen.map BitVec.toNat) = some (s.dec.idx.toNat + 1) ∧
      t.dec.resNext = some ((s.dec.latBase + s.dec.idx.toNat + 1) % 2 ^ s.addrW)

/-- R41, R165: a BYTE turn at an unreadable byte has no step; the model says so by a fault (log entry 3). -/
def Obligations.UnreadableByteIsStuck : Prop :=
  ∀ (i : Instr) (s : State), s.dec.phase = .busy →
    Memory.read s.mem ((s.dec.latBase + s.dec.idx.toNat) % 2 ^ s.addrW) = none →
    exec i s = .fault (.stuckUnreadable ((s.dec.latBase + s.dec.idx.toNat) % 2 ^ s.addrW))

/-- R24, R40, R92, R93: what DECODE32 and DECODE64 leave unchanged. Neither stores to memory, so every byte reads as
before. While a command runs, the held offer and the latch stay; a refused command leaves all but the result registers
of the instance. -/
def Obligations.CommandsFrame : Prop :=
  ∀ (i : Instr) (s t : State), exec i s = .next t →
    t.addrW = s.addrW ∧ t.cmd = s.cmd ∧ t.cmdAddr = s.cmdAddr ∧ t.rst = s.rst ∧ t.host = s.host ∧
    t.lastRead = s.lastRead ∧ (∀ a, Memory.read t.mem a = Memory.read s.mem a) ∧
    (s.dec.phase = .busy → t.cmdValid = s.cmdValid ∧ t.dec.latN = s.dec.latN ∧
      t.dec.latBudget = s.dec.latBudget ∧ t.dec.latBase = s.dec.latBase ∧
      (t.dec.phase = .busy → t.dec.resStatus = s.dec.resStatus ∧ t.dec.resValue = s.dec.resValue ∧
        t.dec.resLen = s.dec.resLen ∧ t.dec.resNext = s.dec.resNext)) ∧
    (s.dec.phase = .idle → i.wellFormed = false → t.dec.phase = .idle ∧ t.dec.latN = s.dec.latN ∧
      t.dec.latBudget = s.dec.latBudget ∧ t.dec.latBase = s.dec.latBase ∧ t.dec.acc = s.dec.acc ∧
      t.dec.idx = s.dec.idx)

/-- R182: a command offered while BUSY is not accepted; the port holds it, the latch keeps the running command, and a
further offer of the host waits. -/
def Obligations.OfferWhileBusyIsHeld : Prop :=
  ∀ s t : State, s.rst = false → s.dec.phase = .busy → s.cmdValid = true → step s = .next t →
    (s.host = [] ∨ ∃ cmd op rest, s.host = .offer cmd op :: rest) →
    cmdReady s.dec = false ∧ t.cmdValid = true ∧ t.cmd = s.cmd ∧ t.cmdAddr = s.cmdAddr ∧ t.host = s.host ∧
      t.dec.latN = s.dec.latN ∧ t.dec.latBudget = s.dec.latBudget ∧ t.dec.latBase = s.dec.latBase

/-! ### The host and reset -/

/-- R35: a host read of a result register that holds `⊥` is a fault. -/
def Obligations.ReadOfNoValueFaults : Prop :=
  ∀ (s : State) (rest : List HostMove),
    (s.host = .read .resValue :: rest → s.dec.resValue = none → step s = .fault (.readInvalid .resValue)) ∧
    (s.host = .read .resLen :: rest → s.dec.resLen = none → step s = .fault (.readInvalid .resLen)) ∧
    (s.host = .read .resNext :: rest → s.dec.resNext = none → step s = .fault (.readInvalid .resNext))

/-- R32, R91: a READ of `cmd_ready`, of `RES_STATUS`, or of a valid result register returns it and changes nothing of
the block, in any phase. -/
def Obligations.ReadReturnsTheRegister : Prop :=
  ∀ (s : State) (rest : List HostMove),
    (s.host = .read .cmdReady :: rest →
      step s = .next { s with host := rest, lastRead := some (.ready (if s.dec.phase = .idle then 1 else 0)) }) ∧
    (s.host = .read .resStatus :: rest →
      step s = .next { s with host := rest, lastRead := some (.status s.dec.resStatus.code) }) ∧
    (∀ v, s.host = .read .resValue :: rest → s.dec.resValue = some v →
      step s = .next { s with host := rest, lastRead := some (.value v) }) ∧
    (∀ v, s.host = .read .resLen :: rest → s.dec.resLen = some v →
      step s = .next { s with host := rest, lastRead := some (.len v) }) ∧
    (∀ v, s.host = .read .resNext :: rest → s.dec.resNext = some v →
      step s = .next { s with host := rest, lastRead := some (.next v) })

/-- R72: the codes of `RES_STATUS`; 5, 6 and 7 are never produced. -/
def Obligations.StatusCodes : Prop :=
  Status.none.code = 0 ∧ Status.ok.code = 1 ∧ Status.overflow.code = 2 ∧ Status.budgetExceeded.code = 3 ∧
  Status.illegalCmd.code = 4 ∧ ∀ st : Status, st.code.toNat < 5

/-- R21, R30, R73: an offer at a number, or at `RES_NEXT` where it is valid, puts the command on the port; at `RES_NEXT`
where it holds `⊥` the read faults. That `RES_NEXT` is read in the move that offers the command, so that an offer at
it while a command runs faults, is the model's reading (log entry 22): R21 and R73 do not say when it is read. That the
offer is a move of its own, and how the fault is recorded, are log entries 7 and 13; addresses are log entry 2. -/
def Obligations.OfferPutsTheCommandOnThePort : Prop :=
  ∀ (s : State) (cmd : CmdWord) (rest : List HostMove), s.cmdValid = false →
    (∀ a, s.host = .offer cmd (.imm a) :: rest → a < 2 ^ s.addrW →
      step s = .next { s with host := rest, cmdValid := true, cmd := cmd, cmdAddr := a }) ∧
    (∀ a, s.host = .offer cmd .resNext :: rest → s.dec.resNext = some a → a < 2 ^ s.addrW →
      step s = .next { s with host := rest, cmdValid := true, cmd := cmd, cmdAddr := a }) ∧
    (s.host = .offer cmd .resNext :: rest → s.dec.resNext = none → step s = .fault (.readInvalid .resNext))

/-- R50, R181: a byte the host places is what a later read returns; every other byte stays, and so does everything else
(log entry 14). -/
def Obligations.PlacedByteIsSeen : Prop :=
  ∀ (s : State) (a : Nat) (b : Byte) (rest : List HostMove), s.host = .place a b :: rest → a < 2 ^ s.addrW →
    (s.dec.phase = .busy → ∀ j, j ≤ 9 → (s.dec.latBase + j) % 2 ^ s.addrW ≠ a) →
    ∃ m : Memory, step s = .next { s with host := rest, mem := m } ∧ Memory.read m a = some b ∧
      (∀ a', a' ≠ a → Memory.read m a' = Memory.read s.mem a') ∧ (Memory.wf s.mem = true → Memory.wf m = true)

/-- R49, R165: while an instance is BUSY, a write to a byte at `ea(0) .. ea(9)` has no move (log entry 14). -/
def Obligations.WriteDuringCommandHasNoMove : Prop :=
  ∀ (s : State) (b : Byte) (rest : List HostMove) (j : Nat), j ≤ 9 → s.dec.phase = .busy →
    s.host = .place ((s.dec.latBase + j) % 2 ^ s.addrW) b :: rest →
    step s = .fault (.writeDuringCommand ((s.dec.latBase + j) % 2 ^ s.addrW))

/-- R33: the registers after reset, those that R33 gives a value. -/
def Obligations.ResetRegisterValues : Prop :=
  State.reset.dec.phase = .idle ∧ State.reset.dec.resStatus = .none ∧ State.reset.dec.resValue = none ∧
  State.reset.dec.resLen = none ∧ State.reset.dec.resNext = none

/-- R180, R171: asserting `rst` resets the block from any state, BUSY or stuck ones too, with no use of the stream; while
it stays asserted the block's turn resets it again, even with a command offered (log entries 6 and 9). -/
def Obligations.ResetFromAnyState : Prop :=
  ∀ s : State,
    (∀ rest, s.host = .assertRst :: rest →
      ∃ d : Decoder, step s = .next { s with host := rest, rst := true, dec := d } ∧ d.phase = .idle ∧
        d.resStatus = .none ∧ d.resValue = none ∧ d.resLen = none ∧ d.resNext = none) ∧
    (s.host = [] → s.rst = true →
      ∃ d : Decoder, step s = .next { s with dec := d } ∧ d.phase = .idle ∧
        d.resStatus = .none ∧ d.resValue = none ∧ d.resLen = none ∧ d.resNext = none) ∧
    (∀ rest, s.host = .releaseRst :: rest → step s = .next { s with host := rest, rst := false })

/-! ### Rules about every step -/

/-- R31, R32, R183: the result registers change only at ACCEPT, at a completion, and at reset. That `cmd_valid` is 0
after the ACCEPT is no part of these rules but the model's choice (log entry 8). -/
def Obligations.ResultsChangeOnlyWhereAllowed : Prop :=
  ∀ s t : State, step s = .next t →
    (t.dec.resStatus ≠ s.dec.resStatus ∨ t.dec.resValue ≠ s.dec.resValue ∨ t.dec.resLen ≠ s.dec.resLen ∨
      t.dec.resNext ≠ s.dec.resNext) →
    (s.rst = true ∨ ∃ rest, s.host = .assertRst :: rest) ∨
    (s.rst = false ∧ s.dec.phase = .idle ∧ s.cmdValid = true ∧ t.cmdValid = false) ∨
    (s.rst = false ∧ s.dec.phase = .busy ∧ t.dec.phase = .idle)

/-- R24, R32: the latch changes only at the ACCEPT of a legal command, which copies `CMD` and `CMD_ADDR` into it, or at
reset. -/
def Obligations.LatchChangesOnlyAtAccept : Prop :=
  ∀ s t : State, step s = .next t →
    (t.dec.latN ≠ s.dec.latN ∨ t.dec.latBudget ≠ s.dec.latBudget ∨ t.dec.latBase ≠ s.dec.latBase) →
    (s.rst = true ∨ ∃ rest, s.host = .assertRst :: rest) ∨
    (s.rst = false ∧ s.dec.phase = .idle ∧ s.cmdValid = true ∧ legalWord s.cmd = true ∧
      t.dec.latN = (if s.cmd.getLsbD 4 then .w64 else .w32) ∧ t.dec.latBudget = s.cmd.extractLsb' 0 4 ∧
      t.dec.latBase = s.cmdAddr)

/-- R23, R91, R92: the block becomes BUSY only by accepting a legal command. Two conclusions are the model's and follow
from none of these rules: that `rst` was low (log entry 9, from R180: R91 alone would allow an ACCEPT while `rst` is
asserted), and that `cmd_valid` is 0 afterwards (log entry 8). -/
def Obligations.BusyOnlyByLegalAccept : Prop :=
  ∀ s t : State, step s = .next t → s.dec.phase = .idle → t.dec.phase = .busy →
    s.rst = false ∧ s.cmdValid = true ∧ legalWord s.cmd = true ∧ t.cmdValid = false ∧ t.dec.idx = 0 ∧
      t.dec.acc = 0 ∧ t.dec.latBase = s.cmdAddr

/-- R94, R161, R171: a running command ends only by completing with OK, OVERFLOW or BUDGET_EXCEEDED, or by reset. -/
def Obligations.BusyEndsByCompletionOrReset : Prop :=
  ∀ s t : State, step s = .next t → s.dec.phase = .busy → t.dec.phase = .idle →
    (s.rst = true ∨ ∃ rest, s.host = .assertRst :: rest) ∨
    (t.dec.resStatus = .ok ∧ t.dec.resValue.isSome = true ∧ t.dec.resLen.isSome = true ∧
      t.dec.resNext.isSome = true) ∨
    (t.dec.resStatus = .overflow ∧ s.dec.idx = 9 ∧ t.dec.resValue = none ∧ t.dec.resLen = none ∧
      t.dec.resNext = none) ∨
    (t.dec.resStatus = .budgetExceeded ∧ s.dec.idx.toNat + 1 = s.dec.latBudget.toNat ∧
      t.dec.resValue.isSome = true ∧ t.dec.resLen = none ∧ t.dec.resNext = none)

/-- R40: no step of the block writes the stream; a byte that reads otherwise after a step was placed by the host in that
step. The address width never changes (R5). -/
def Obligations.OnlyTheHostWritesTheStream : Prop :=
  ∀ s t : State, step s = .next t →
    t.addrW = s.addrW ∧
    ∀ a, Memory.read t.mem a ≠ Memory.read s.mem a →
      ∃ b rest, s.host = .place a b :: rest ∧ Memory.read t.mem a = some b

/-- The invariant of the machine holds at reset. -/
def Obligations.ResetMeetsTheInvariant : Prop := State.Inv State.reset

/-- Every step keeps the invariant of the machine (R5, R23 to R29, R46, R104, R107, R180 and the canonical form of the
stream). -/
def Obligations.StepKeepsTheInvariant : Prop :=
  ∀ s t : State, State.Inv s → step s = .next t → State.Inv t

/-! ### The value datapath -/

/-- R101: the contribution of one byte, as a number. -/
def Obligations.ContributionIsShiftedPayload : Prop :=
  ∀ (n i : Nat) (b : Byte), (contrib n i b).toNat = (b.toNat % 128 * 2 ^ (7 * i)) % 2 ^ n

/-- R102: the accumulation is the wrapping sum of the contributions in the window. -/
def Obligations.AccumulationIsTheWrappingSum : Prop :=
  ∀ (n : Width) (m : Nat) (byte : Nat → Byte), m ≤ 10 →
    (accumulate n m byte).toNat =
      (∑ i ∈ Finset.range (min m (if n = .w64 then 10 else 5)), (byte i).toNat % 128 * 2 ^ (7 * i)) %
        2 ^ (if n = .w64 then 64 else 32)

/-- R104: a contribution has bits only at positions 7*i to 7*i + 6 of the N bits; inside the window the next one has no
bit in common with the partial value, so adding it and OR-ing it are the same. -/
def Obligations.AdditionEqualsOr : Prop :=
  (∀ (n i j : Nat) (b : Byte), (contrib n i b).getLsbD j = true → 7 * i ≤ j ∧ j ≤ 7 * i + 6 ∧ j < n) ∧
  ∀ (n : Width) (m : Nat) (byte : Nat → Byte), m < widthWindow n →
    accumulate n m byte &&& contrib (widthBits n) m (byte m) = 0 ∧
    accumulate n (m + 1) byte = accumulate n m byte ||| contrib (widthBits n) m (byte m)

/-- R103, R141: under DECODE32 a byte at index 5 to 9 leaves the value as it is. -/
def Obligations.Decode32StopsAccumulating : Prop :=
  ∀ (m : Nat) (byte byte' : Nat → Byte), 5 ≤ m → (∀ j, j < 5 → byte j = byte' j) →
    accumulate .w32 m byte = accumulate .w32 5 byte' ∧
    ∀ (acc : BitVec (widthBits .w32)) (b : Byte), accStep .w32 acc m b = acc

/-- R105: the fill pattern, bit by bit and as a number. That `Fill(32, b)` is 0 from `b = 5` on, in the last clause and
in the first, is the choice D8 (log entry 15): R105 calls it "the spec's reading" of the source's words. -/
def Obligations.FillPattern : Prop :=
  (∀ n b j : Nat, j < n → (fill n b).getLsbD j = decide (7 * b ≤ j)) ∧
  (∀ b, 1 ≤ b → b ≤ 9 → (fill 64 b).toNat = 2 ^ 64 - 2 ^ (7 * b)) ∧
  (∀ b, 1 ≤ b → b ≤ 4 → (fill 32 b).toNat = 2 ^ 32 - 2 ^ (7 * b)) ∧
  (∀ b, 5 ≤ b → fill 32 b = 0)

/-- R107: the speculative value splits into the partial value below bit 7*b and ones from there up. -/
def Obligations.SpeculativeValueSplits : Prop :=
  ∀ (n : Width) (b : Nat) (byte : Nat → Byte), 1 ≤ b → b ≤ (if n = .w64 then 9 else 4) →
    (accumulate n b byte).toNat < 2 ^ (7 * b) ∧
    speculative n b byte = accumulate n b byte + fill (widthBits n) b ∧
    ∀ j, j < widthBits n →
      (speculative n b byte).getLsbD j = (if j < 7 * b then (accumulate n b byte).getLsbD j else true)

/-- R108: of the 10th byte only payload bit 0 enters a 64-bit value, as bit 63; of the 5th byte only payload bits 3:0
enter a 32-bit value, as bits 31:28. -/
def Obligations.OverlongTails : Prop :=
  ∀ b : Byte,
    (contrib 64 9 b).toNat = (b.toNat % 2) * 2 ^ 63 ∧ (contrib 32 4 b).toNat = (b.toNat % 16) * 2 ^ 28

/-! ### The scan and whole commands -/

/-- R82 to R86: which outcome the scan has, and how many bytes it reads. -/
def Obligations.ScanOutcomes : Prop :=
  ∀ (b : Nat) (byte : Nat → Byte), 1 ≤ b → b ≤ 10 →
    (∀ i, scan b byte = .term i ↔
      i < b ∧ (byte i).getLsbD 7 = false ∧ ∀ j, j < i → (byte j).getLsbD 7 = true) ∧
    (scan b byte = .ovf ↔ b = 10 ∧ ∀ j, j < 10 → (byte j).getLsbD 7 = true) ∧
    (scan b byte = .bud ↔ b < 10 ∧ ∀ j, j < b → (byte j).getLsbD 7 = true) ∧
    1 ≤ scanReads b (scan b byte) ∧ scanReads b (scan b byte) ≤ min b 10

/-- R87, R125: the budget never changes a successful result, only whether decoding may go on. -/
def Obligations.BudgetNeverChangesSuccess : Prop :=
  (∀ (b i : Nat) (byte : Nat → Byte), 1 ≤ b → b ≤ 10 → scan 10 byte = .term i →
    (i + 1 ≤ b → scan b byte = .term i) ∧ (b < i + 1 → scan b byte = .bud)) ∧
  (∀ (n : Width) (b w base l : Nat) (m : Memory) (r : DecodeResult (widthBits n)), 1 ≤ b → b ≤ 10 →
    decodeTransaction n 10 w base m = some r → r.status = .ok → r.len = some l → l ≤ b →
    decodeTransaction n b w base m = some r)

/-- R95: the step machine and the function `Decode` agree, step by step and in the result. -/
def Obligations.MachineAgreesWithDecode : Prop :=
  ∀ (i : Instr) (s : State) (r : DecodeResult (widthBits i.width)), s.Offers i → i.wellFormed = true →
    decodeTransaction i.width i.budget.toNat s.addrW s.cmdAddr s.mem = some r →
    let byte := s.stream s.cmdAddr
    let m := scanReads i.budget.toNat (scan i.budget.toNat byte)
    1 ≤ m ∧ m ≤ 10 ∧
    (∃ t, runSteps (m + 1) s = .next t ∧ t.dec.phase = .idle ∧ t.dec.resStatus = r.status ∧
      t.dec.resValue = r.value.map (fun v => v.setWidth 64) ∧ t.dec.resLen = r.len.map (BitVec.ofNat 4) ∧
      t.dec.resNext = r.next) ∧
    (∀ j, j < m → ∃ u, runSteps (j + 1) s = .next u ∧ u.dec.phase = .busy ∧ u.dec.idx.toNat = j ∧
      u.dec.acc.setWidth (widthBits i.width) = accumulate i.width j byte)

/-- R121: DECODE64 whose first byte with bit 7 clear is at index `k` within the budget. Only bytes 0 to `k` are asked to
be readable: nothing past the terminator is read (R45). -/
def Obligations.Decode64Ok : Prop :=
  ∀ (s : State) (b : BitVec 4) (k : Nat), s.Offers (.decode64 b) → b.toNat ≤ 10 → k + 1 ≤ b.toNat →
    (∀ j, j ≤ k → (s.streamByte s.cmdAddr j).isSome = true) →
    (∀ j, j < k → (s.stream s.cmdAddr j).getLsbD 7 = true) → (s.stream s.cmdAddr k).getLsbD 7 = false →
    ∃ t, runSteps (k + 2) s = .next t ∧ t.dec.phase = .idle ∧ t.dec.resStatus = .ok ∧
      t.dec.resValue = some ((accumulate .w64 (k + 1) (s.stream s.cmdAddr)).setWidth 64) ∧
      t.dec.resLen = some (BitVec.ofNat 4 (k + 1)) ∧ t.dec.resNext = some ((s.cmdAddr + k + 1) % 2 ^ s.addrW)

/-- R122: DECODE64 with budget 10 and ten continuation bytes: each of the ten bytes is read, at IDX 0 to 9, and the tenth
completes. -/
def Obligations.Decode64Overflow : Prop :=
  ∀ s : State, s.Offers (.decode64 10) → (∀ j, j < 10 → (s.streamByte s.cmdAddr j).isSome = true) →
    (∀ j, j < 10 → (s.stream s.cmdAddr j).getLsbD 7 = true) →
    ∃ t, runSteps 11 s = .next t ∧ t.dec.phase = .idle ∧ t.dec.resStatus = .overflow ∧ t.dec.resValue = none ∧
      t.dec.resLen = none ∧ t.dec.resNext = none ∧
      ∀ j, j < 10 → ∃ u, runSteps (j + 1) s = .next u ∧ u.dec.phase = .busy ∧ u.dec.idx.toNat = j

/-- R123: DECODE64 whose budget, below 10, runs out: the pinned speculative value. Exactly `b` bytes are read, at IDX 0 to
`b - 1`; only they are asked to be readable. -/
def Obligations.Decode64BudgetExceeded : Prop :=
  ∀ (s : State) (b : BitVec 4), s.Offers (.decode64 b) → 1 ≤ b.toNat → b.toNat < 10 →
    (∀ j, j < b.toNat → (s.streamByte s.cmdAddr j).isSome = true) →
    (∀ j, j < b.toNat → (s.stream s.cmdAddr j).getLsbD 7 = true) →
    ∃ t, runSteps (b.toNat + 1) s = .next t ∧ t.dec.phase = .idle ∧ t.dec.resStatus = .budgetExceeded ∧
      t.dec.resValue = some ((accumulate .w64 b.toNat (s.stream s.cmdAddr)).setWidth 64 |||
        BitVec.ofNat 64 (2 ^ 64 - 2 ^ (7 * b.toNat))) ∧
      t.dec.resLen = none ∧ t.dec.resNext = none ∧
      ∀ j, j < b.toNat → ∃ u, runSteps (j + 1) s = .next u ∧ u.dec.phase = .busy ∧ u.dec.idx.toNat = j

/-- R142, R140: DECODE32 with its terminator at index `k` within the budget: length and next address follow the scan,
and the value stops changing after byte 4. -/
def Obligations.Decode32Ok : Prop :=
  ∀ (s : State) (b : BitVec 4) (k : Nat), s.Offers (.decode32 b) → b.toNat ≤ 10 → k + 1 ≤ b.toNat →
    (∀ j, j ≤ k → (s.streamByte s.cmdAddr j).isSome = true) →
    (∀ j, j < k → (s.stream s.cmdAddr j).getLsbD 7 = true) → (s.stream s.cmdAddr k).getLsbD 7 = false →
    ∃ t, runSteps (k + 2) s = .next t ∧ t.dec.phase = .idle ∧ t.dec.resStatus = .ok ∧
      t.dec.resValue = some ((accumulate .w32 (min (k + 1) 5) (s.stream s.cmdAddr)).setWidth 64) ∧
      t.dec.resLen = some (BitVec.ofNat 4 (k + 1)) ∧ t.dec.resNext = some ((s.cmdAddr + k + 1) % 2 ^ s.addrW)

/-- R143: DECODE32 when its budget runs out and when the cap is hit. That no bit is forced for `b` from 5 to 9 is the
spec's own choice D8, which the source does not decide (log entry 15). -/
def Obligations.Decode32Failures : Prop :=
  (∀ (s : State) (b : BitVec 4), s.Offers (.decode32 b) → 1 ≤ b.toNat → b.toNat < 10 →
    (∀ j, j < b.toNat → (s.streamByte s.cmdAddr j).isSome = true) →
    (∀ j, j < b.toNat → (s.stream s.cmdAddr j).getLsbD 7 = true) →
    ∃ t, runSteps (b.toNat + 1) s = .next t ∧ t.dec.phase = .idle ∧ t.dec.resStatus = .budgetExceeded ∧
      t.dec.resValue = some (if b.toNat ≤ 4 then
          ((accumulate .w32 b.toNat (s.stream s.cmdAddr)).setWidth 32 |||
            BitVec.ofNat 32 (2 ^ 32 - 2 ^ (7 * b.toNat))).setWidth 64
        else (accumulate .w32 5 (s.stream s.cmdAddr)).setWidth 64) ∧
      t.dec.resLen = none ∧ t.dec.resNext = none) ∧
  (∀ s : State, s.Offers (.decode32 10) → (∀ j, j < 10 → (s.streamByte s.cmdAddr j).isSome = true) →
    (∀ j, j < 10 → (s.stream s.cmdAddr j).getLsbD 7 = true) →
    ∃ t, runSteps 11 s = .next t ∧ t.dec.phase = .idle ∧ t.dec.resStatus = .overflow ∧ t.dec.resValue = none ∧
      t.dec.resLen = none ∧ t.dec.resNext = none)

/-- R46, R47, R96: a legal command whose caller keeps either form of the obligation completes after at most
`min(b, 10)` BYTE steps. -/
def Obligations.EveryCommandCompletes : Prop :=
  ∀ (i : Instr) (s : State), s.Offers i → i.wellFormed = true → s.CallerDuty s.cmdAddr i.budget.toNat →
    ∃ m t, 1 ≤ m ∧ m ≤ min i.budget.toNat 10 ∧ runSteps (m + 1) s = .next t ∧ t.dec.phase = .idle ∧
      (t.dec.resStatus = .ok ∨ t.dec.resStatus = .overflow ∨ t.dec.resStatus = .budgetExceeded)

/-- R34, R45: what the host sees of a command depends on its `CMD` word, its `CMD_ADDR` and the bytes it reads, and on
nothing the block did before: two machines that agree on these show the same after every number of steps, and one
faults exactly as the other does. -/
def Obligations.NoCarriedState : Prop :=
  ∀ s s' : State, s.host = [] → s'.host = [] → s.rst = false → s'.rst = false →
    s.dec.phase = .idle → s'.dec.phase = .idle → s.cmdValid = true → s'.cmdValid = true →
    s'.cmd = s.cmd → s'.cmdAddr = s.cmdAddr → s'.addrW = s.addrW →
    (legalWord s.cmd = true →
      ∀ j, j < scanReads (s.cmd.extractLsb' 0 4).toNat (scan (s.cmd.extractLsb' 0 4).toNat (s.stream s.cmdAddr)) →
        s'.streamByte s.cmdAddr j = s.streamByte s.cmdAddr j) →
    ∀ k,
      (∀ t, runSteps (k + 1) s = .next t →
        ∃ t', runSteps (k + 1) s' = .next t' ∧ Decoder.SameView t.dec t'.dec) ∧
      (∀ f, runSteps (k + 1) s = .fault f → runSteps (k + 1) s' = .fault f)

/-- R172: in a system of several instances, what one instance does is what it does alone with the host's writes,
whatever the interleaving of the others' moves. -/
def Obligations.InstancesAreIndependent : Prop :=
  ∀ (ms : List SysMove) (sys sys' : System) (k : Nat) (d : Decoder),
    sys.decs[k]? = some d → sysRun ms sys = some sys' →
    ∃ d', sys'.decs[k]? = some d' ∧ sys'.decs.length = sys.decs.length ∧
      sysRun (ms.filterMap (SysMove.alone k)) { sys with decs := [d] } = some { sys' with decs := [d'] }

/-! ### The assembler -/

/-- R73, R74: the assembler encodes exactly the budgets 1 to 10, the default being 10, and never an illegal word. -/
def Obligations.AssemblerEmitsLegalWords : Prop :=
  ∀ (n : Width) (budget : Option Nat) (addr : AddrOperand),
    (∀ b, budget = some b → ¬(1 ≤ b ∧ b ≤ 10) → assemble ⟨n, budget, addr⟩ = none) ∧
    (∀ b, (budget = some b ∧ 1 ≤ b ∧ b ≤ 10) ∨ (budget = none ∧ b = 10) →
      ∃ cmd, assemble ⟨n, budget, addr⟩ = some (cmd, addr) ∧ legalWord cmd = true ∧
        cmd.toNat = (if n = .w64 then 0x10 else 0x00) + b)
end

