-- ==== Sys2Proof/Laws/Datapath.lean ====
section
/-!
SUPPORT. The value datapath and the pure functions, one stage at a time.
-/
namespace Sys2Proof.Machine

theorem accStep_inWindow {n : Width} {i : Nat} (acc : BitVec (widthBits n)) (b : Byte) (h : i < widthWindow n) :
    accStep n acc i b = acc + contrib (widthBits n) i b := if_pos h

theorem accStep_pastWindow {n : Width} {i : Nat} (acc : BitVec (widthBits n)) (b : Byte) (h : ¬i < widthWindow n) :
    accStep n acc i b = acc := if_neg h

/-- One more byte of an accumulation is one stage step (R109). -/
theorem accumulate_succ (n : Width) (m : Nat) (byte : Nat → Byte) :
    accumulate n (m + 1) byte = accStep n (accumulate n m byte) m (byte m) := rfl

theorem payload_toNat (b : Byte) : (payload b).toNat = b.toNat % 128 := by
  simp [payload]

/-- A contribution fits its seven bits at position 7*i. -/
theorem contrib_toNat_le (n i : Nat) (b : Byte) : (contrib n i b).toNat ≤ 127 * 2 ^ (7 * i) := by
  have hp : (payload b).toNat ≤ 127 := by rw [payload_toNat]; omega
  unfold contrib groupBits
  rw [BitVec.toNat_shiftLeft, BitVec.toNat_setWidth, Nat.shiftLeft_eq]
  exact (Nat.mod_le _ _).trans (Nat.mul_le_mul_right _ ((Nat.mod_le _ _).trans hp))

/-- A stage step raises the bound on the partial value by seven bits (R104, R107). -/
theorem accStep_toNat_lt {n : Width} {acc : BitVec (widthBits n)} {i : Nat} (b : Byte)
    (h : acc.toNat < 2 ^ (7 * i)) : (accStep n acc i b).toNat < 2 ^ (7 * (i + 1)) := by
  have hp : 2 ^ (7 * (i + 1)) = 128 * 2 ^ (7 * i) := by
    rw [Nat.mul_add, Nat.pow_add]
    omega
  unfold accStep
  split
  · rw [BitVec.toNat_add]
    have := contrib_toNat_le (widthBits n) i b
    exact (Nat.mod_le _ _).trans_lt (by omega)
  · omega

theorem widthBits_le (n : Width) : widthBits n ≤ 64 := by cases n <;> decide

/-- Extending a value to 64 bits and cutting it back loses nothing (R93). -/
theorem setWidth_widthBits (n : Width) (x : BitVec (widthBits n)) :
    (x.setWidth 64).setWidth (widthBits n) = x := by
  apply BitVec.eq_of_toNat_eq
  have h64 : x.toNat < 2 ^ 64 := lt_of_lt_of_le x.isLt (Nat.pow_le_pow_right (by omega) (widthBits_le n))
  rw [BitVec.toNat_setWidth, BitVec.toNat_setWidth, Nat.mod_eq_of_lt h64, Nat.mod_eq_of_lt x.isLt]

end Sys2Proof.Machine
end

