-- ==== Sys2Proof/Laws/Decode.lean ====
section
/-!
SUPPORT. What a decoded command takes from its word, and what the decoder rejects.
-/
namespace Sys2Proof

theorem fieldW_of_row (cmd : CmdWord) :
    (cmd &&& 0xF0#8 = 0x00#8 → fieldW cmd = .w32) ∧ (cmd &&& 0xF0#8 = 0x10#8 → fieldW cmd = .w64) := by
  revert cmd
  decide

/-- The command the decoder reads has the word's width and budget fields (R61, R62). -/
theorem decode_fields {cmd : CmdWord} {i : Instr} (h : decode cmd = .ok i) :
    i.width = fieldW cmd ∧ i.budget = fieldBudget cmd := by
  unfold decode at h
  split at h
  · cases h
    exact ⟨((fieldW_of_row cmd).1 ‹_›).symm, rfl⟩
  · split at h
    · cases h
      exact ⟨((fieldW_of_row cmd).2 ‹_›).symm, rfl⟩
    · cases h

theorem rsv_of_row (cmd : CmdWord) :
    (cmd &&& 0xF0#8 = 0x00#8 → fieldRsv cmd = 0) ∧ (cmd &&& 0xF0#8 = 0x10#8 → fieldRsv cmd = 0) ∧
      (cmd &&& 0xF0#8 ≠ 0x00#8 → cmd &&& 0xF0#8 ≠ 0x10#8 → fieldRsv cmd ≠ 0) := by
  revert cmd
  decide

/-- The decoder rejects exactly the words with a reserved bit set (R63, R67). -/
theorem decode_error_iff (cmd : CmdWord) : decode cmd = .error .reservedBits ↔ fieldRsv cmd ≠ 0 := by
  obtain ⟨h0, h1, h2⟩ := rsv_of_row cmd
  unfold decode
  split
  · simp [h0 ‹_›]
  · split
    · simp [h1 ‹_›]
    · simpa using h2 ‹_› ‹_›

/-- A decoded word is legal (R64) exactly where its command is well formed. -/
theorem legalWord_of_decode {cmd : CmdWord} {i : Instr} (h : decode cmd = .ok i) :
    legalWord cmd = i.wellFormed := by
  have hr : fieldRsv cmd = 0 := by
    by_contra hne
    rw [(decode_error_iff cmd).mpr hne] at h
    cases h
  unfold legalWord Instr.wellFormed legalBudget
  rw [(decode_fields h).2]
  simp [hr]

end Sys2Proof
end

