-- ==== Sys2Proof/Laws/Instances.lean ====
section
/-!
SUPPORT. What a move of a system of instances can do.
-/
namespace Sys2Proof.Machine

/-- A move changes one instance, or the stream, and nothing else (R172). -/
theorem sysMove_some {sys sys' : System} {m : SysMove} (h : sysMove sys m = some sys') :
    (∃ k d, sys' = { sys with decs := sys.decs.set k d }) ∨
    (∃ a b, m = .place a b ∧ sys' = { sys with mem := Memory.write sys.mem a b }) := by
  cases m with
  | accept k cmd addr =>
    simp only [sysMove] at h
    split at h
    · cases h
    · split at h
      · cases h
        exact .inl ⟨_, _, rfl⟩
      · cases h
  | byte k =>
    simp only [sysMove] at h
    split at h
    · cases h
    · split at h
      · split at h
        · cases h
          exact .inl ⟨_, _, rfl⟩
        · cases h
      · cases h
  | reset k =>
    simp only [sysMove] at h
    split at h
    · cases h
    · cases h
      exact .inl ⟨_, _, rfl⟩
  | place a b =>
    simp only [sysMove] at h
    split at h
    · cases h
      exact .inr ⟨a, b, rfl, rfl⟩
    · cases h

theorem sysMove_addrW {sys sys' : System} {m : SysMove} (h : sysMove sys m = some sys') :
    sys'.addrW = sys.addrW := by
  rcases sysMove_some h with ⟨k, d, rfl⟩ | ⟨a, b, _, rfl⟩ <;> rfl

theorem sysMove_length {sys sys' : System} {m : SysMove} (h : sysMove sys m = some sys') :
    sys'.decs.length = sys.decs.length := by
  rcases sysMove_some h with ⟨k, d, rfl⟩ | ⟨a, b, _, rfl⟩ <;> simp

end Sys2Proof.Machine
end

