-- ==== Sys2Proof/Laws/Memory.lean ====
section
/-!
SUPPORT. The laws of the byte stream: reading back a placed byte, leaving every other byte alone, and keeping the
canonical form.
-/
namespace Sys2Proof.Machine

@[simp] theorem Memory.read_nil (a : Nat) : Memory.read [] a = none := rfl

theorem Memory.read_cons (c : Host.Cell) (m : Memory) (a : Nat) :
    Memory.read (c :: m) a = if c.1 = a then some c.2 else Memory.read m a := rfl

/-- A placed byte reads back. -/
theorem Memory.read_write_same (m : Memory) (a : Nat) (b : Byte) : Memory.read (Memory.write m a b) a = some b := by
  induction m with
  | nil => simp [Memory.write, Memory.read_cons]
  | cons c m ih =>
    unfold Memory.write
    split
    · simp [Memory.read_cons]
    · split
      · simp [Memory.read_cons]
      · rename_i h
        have : c.1 ≠ a := fun e => h e.symm
        simp [Memory.read_cons, this, ih]

/-- Placing a byte leaves every other address as it was. -/
theorem Memory.read_write_other {m : Memory} {a a' : Nat} (b : Byte) (h : a' ≠ a) :
    Memory.read (Memory.write m a b) a' = Memory.read m a' := by
  induction m with
  | nil => simp [Memory.write, Memory.read_cons, h.symm]
  | cons c m ih =>
    unfold Memory.write
    split
    · simp [Memory.read_cons, h.symm]
    · split
      · rename_i hc
        subst hc
        simp [Memory.read_cons, h.symm]
      · simp [Memory.read_cons, ih]

/-- Every cell of the stream after a write is the written one or was there before. -/
theorem Memory.mem_write {m : Memory} {a : Nat} {b : Byte} {c : Host.Cell} (h : c ∈ Memory.write m a b) :
    c = (a, b) ∨ c ∈ m := by
  induction m with
  | nil => simpa [Memory.write] using h
  | cons d m ih =>
    unfold Memory.write at h
    split at h
    · simpa using h
    · split at h
      · rcases List.mem_cons.mp h with h | h
        · exact .inl h
        · exact .inr (List.mem_cons_of_mem _ h)
      · rcases List.mem_cons.mp h with h | h
        · exact .inr (h ▸ List.mem_cons_self)
        · exact (ih h).imp id (List.mem_cons_of_mem _)

theorem Memory.wf_cons (c : Host.Cell) (m : Memory) :
    Memory.wf (c :: m) = true ↔ (∀ d ∈ m, c.1 < d.1) ∧ Memory.wf m = true := by
  simp [Memory.wf]

/-- Placing a byte keeps the canonical form. -/
theorem Memory.write_wf {m : Memory} (a : Nat) (b : Byte) (h : Memory.wf m = true) :
    Memory.wf (Memory.write m a b) = true := by
  induction m with
  | nil => rfl
  | cons c m ih =>
    obtain ⟨hc, hm⟩ := (Memory.wf_cons c m).mp h
    unfold Memory.write
    split
    · rename_i hlt
      refine (Memory.wf_cons _ _).mpr ⟨fun d hd => ?_, h⟩
      rcases List.mem_cons.mp hd with rfl | hd
      · exact hlt
      · exact Nat.lt_trans hlt (hc d hd)
    · split
      · rename_i heq
        exact (Memory.wf_cons _ _).mpr ⟨fun d hd => heq ▸ hc d hd, hm⟩
      · rename_i hnlt hne
        refine (Memory.wf_cons _ _).mpr ⟨fun d hd => ?_, ih hm⟩
        rcases Memory.mem_write hd with rfl | hd
        · show c.1 < a
          omega
        · exact hc d hd

/-- Reset memory is in canonical form. -/
theorem Memory.reset_wf : Memory.wf State.reset.mem = true := rfl

end Sys2Proof.Machine
end

