-- ==== Sys2Proof/Laws/State.lean ====
section
/-!
SUPPORT. What each named update of the state and of the registers leaves in each field.
-/
namespace Sys2Proof.Machine

section
variable (s : State) (d : Decoder)
@[simp] theorem State.setDec_addrW : (s.setDec d).addrW = s.addrW := rfl
@[simp] theorem State.setDec_dec : (s.setDec d).dec = d := rfl
@[simp] theorem State.setDec_cmdValid : (s.setDec d).cmdValid = s.cmdValid := rfl
@[simp] theorem State.setDec_cmd : (s.setDec d).cmd = s.cmd := rfl
@[simp] theorem State.setDec_cmdAddr : (s.setDec d).cmdAddr = s.cmdAddr := rfl
@[simp] theorem State.setDec_rst : (s.setDec d).rst = s.rst := rfl
@[simp] theorem State.setDec_mem : (s.setDec d).mem = s.mem := rfl
@[simp] theorem State.setDec_host : (s.setDec d).host = s.host := rfl
@[simp] theorem State.setDec_lastRead : (s.setDec d).lastRead = s.lastRead := rfl
end

section
variable (s : State)
@[simp] theorem State.takeOffer_addrW : s.takeOffer.addrW = s.addrW := rfl
@[simp] theorem State.takeOffer_dec : s.takeOffer.dec = s.dec := rfl
@[simp] theorem State.takeOffer_cmdValid : s.takeOffer.cmdValid = false := rfl
@[simp] theorem State.takeOffer_cmd : s.takeOffer.cmd = s.cmd := rfl
@[simp] theorem State.takeOffer_cmdAddr : s.takeOffer.cmdAddr = s.cmdAddr := rfl
@[simp] theorem State.takeOffer_rst : s.takeOffer.rst = s.rst := rfl
@[simp] theorem State.takeOffer_mem : s.takeOffer.mem = s.mem := rfl
@[simp] theorem State.takeOffer_host : s.takeOffer.host = s.host := rfl
@[simp] theorem State.takeOffer_lastRead : s.takeOffer.lastRead = s.lastRead := rfl
end

section
variable (s : State) (c : CmdWord) (a : Nat)
@[simp] theorem State.setOffer_addrW : (s.setOffer c a).addrW = s.addrW := rfl
@[simp] theorem State.setOffer_dec : (s.setOffer c a).dec = s.dec := rfl
@[simp] theorem State.setOffer_cmdValid : (s.setOffer c a).cmdValid = true := rfl
@[simp] theorem State.setOffer_cmd : (s.setOffer c a).cmd = c := rfl
@[simp] theorem State.setOffer_cmdAddr : (s.setOffer c a).cmdAddr = a := rfl
@[simp] theorem State.setOffer_rst : (s.setOffer c a).rst = s.rst := rfl
@[simp] theorem State.setOffer_mem : (s.setOffer c a).mem = s.mem := rfl
@[simp] theorem State.setOffer_host : (s.setOffer c a).host = s.host := rfl
@[simp] theorem State.setOffer_lastRead : (s.setOffer c a).lastRead = s.lastRead := rfl
end

section
variable (s : State) (v : Bool)
@[simp] theorem State.setRst_addrW : (s.setRst v).addrW = s.addrW := rfl
@[simp] theorem State.setRst_dec : (s.setRst v).dec = s.dec := rfl
@[simp] theorem State.setRst_cmdValid : (s.setRst v).cmdValid = s.cmdValid := rfl
@[simp] theorem State.setRst_cmd : (s.setRst v).cmd = s.cmd := rfl
@[simp] theorem State.setRst_cmdAddr : (s.setRst v).cmdAddr = s.cmdAddr := rfl
@[simp] theorem State.setRst_rst : (s.setRst v).rst = v := rfl
@[simp] theorem State.setRst_mem : (s.setRst v).mem = s.mem := rfl
@[simp] theorem State.setRst_host : (s.setRst v).host = s.host := rfl
@[simp] theorem State.setRst_lastRead : (s.setRst v).lastRead = s.lastRead := rfl
end

section
variable (s : State) (m : Memory)
@[simp] theorem State.setMem_addrW : (s.setMem m).addrW = s.addrW := rfl
@[simp] theorem State.setMem_dec : (s.setMem m).dec = s.dec := rfl
@[simp] theorem State.setMem_cmdValid : (s.setMem m).cmdValid = s.cmdValid := rfl
@[simp] theorem State.setMem_cmd : (s.setMem m).cmd = s.cmd := rfl
@[simp] theorem State.setMem_cmdAddr : (s.setMem m).cmdAddr = s.cmdAddr := rfl
@[simp] theorem State.setMem_rst : (s.setMem m).rst = s.rst := rfl
@[simp] theorem State.setMem_mem : (s.setMem m).mem = m := rfl
@[simp] theorem State.setMem_host : (s.setMem m).host = s.host := rfl
@[simp] theorem State.setMem_lastRead : (s.setMem m).lastRead = s.lastRead := rfl
end

section
variable (s : State) (h : List HostMove)
@[simp] theorem State.setHost_addrW : (s.setHost h).addrW = s.addrW := rfl
@[simp] theorem State.setHost_dec : (s.setHost h).dec = s.dec := rfl
@[simp] theorem State.setHost_cmdValid : (s.setHost h).cmdValid = s.cmdValid := rfl
@[simp] theorem State.setHost_cmd : (s.setHost h).cmd = s.cmd := rfl
@[simp] theorem State.setHost_cmdAddr : (s.setHost h).cmdAddr = s.cmdAddr := rfl
@[simp] theorem State.setHost_rst : (s.setHost h).rst = s.rst := rfl
@[simp] theorem State.setHost_mem : (s.setHost h).mem = s.mem := rfl
@[simp] theorem State.setHost_host : (s.setHost h).host = h := rfl
@[simp] theorem State.setHost_lastRead : (s.setHost h).lastRead = s.lastRead := rfl
end

section
variable (s : State) (r : Reading)
@[simp] theorem State.setLastRead_addrW : (s.setLastRead r).addrW = s.addrW := rfl
@[simp] theorem State.setLastRead_dec : (s.setLastRead r).dec = s.dec := rfl
@[simp] theorem State.setLastRead_cmdValid : (s.setLastRead r).cmdValid = s.cmdValid := rfl
@[simp] theorem State.setLastRead_cmd : (s.setLastRead r).cmd = s.cmd := rfl
@[simp] theorem State.setLastRead_cmdAddr : (s.setLastRead r).cmdAddr = s.cmdAddr := rfl
@[simp] theorem State.setLastRead_rst : (s.setLastRead r).rst = s.rst := rfl
@[simp] theorem State.setLastRead_mem : (s.setLastRead r).mem = s.mem := rfl
@[simp] theorem State.setLastRead_host : (s.setLastRead r).host = s.host := rfl
@[simp] theorem State.setLastRead_lastRead : (s.setLastRead r).lastRead = some r := rfl
end

section
variable (d : Decoder) (st : Status) (v : Option (BitVec 64)) (l : Option (BitVec 4)) (n : Option Nat)
@[simp] theorem Decoder.complete_phase : (d.complete st v l n).phase = .idle := rfl
@[simp] theorem Decoder.complete_latN : (d.complete st v l n).latN = d.latN := rfl
@[simp] theorem Decoder.complete_latBudget : (d.complete st v l n).latBudget = d.latBudget := rfl
@[simp] theorem Decoder.complete_latBase : (d.complete st v l n).latBase = d.latBase := rfl
@[simp] theorem Decoder.complete_acc : (d.complete st v l n).acc = Config.freeAcc d.draws := rfl
@[simp] theorem Decoder.complete_idx : (d.complete st v l n).idx = Config.freeIdx d.draws := rfl
@[simp] theorem Decoder.complete_resStatus : (d.complete st v l n).resStatus = st := rfl
@[simp] theorem Decoder.complete_resValue : (d.complete st v l n).resValue = v := rfl
@[simp] theorem Decoder.complete_resLen : (d.complete st v l n).resLen = l := rfl
@[simp] theorem Decoder.complete_resNext : (d.complete st v l n).resNext = n := rfl
@[simp] theorem Decoder.complete_draws : (d.complete st v l n).draws = d.draws + 1 := rfl
end

section
variable (d : Decoder)
@[simp] theorem Decoder.refuse_phase : d.refuse.phase = d.phase := rfl
@[simp] theorem Decoder.refuse_latN : d.refuse.latN = d.latN := rfl
@[simp] theorem Decoder.refuse_latBudget : d.refuse.latBudget = d.latBudget := rfl
@[simp] theorem Decoder.refuse_latBase : d.refuse.latBase = d.latBase := rfl
@[simp] theorem Decoder.refuse_acc : d.refuse.acc = d.acc := rfl
@[simp] theorem Decoder.refuse_idx : d.refuse.idx = d.idx := rfl
@[simp] theorem Decoder.refuse_resStatus : d.refuse.resStatus = .illegalCmd := rfl
@[simp] theorem Decoder.refuse_resValue : d.refuse.resValue = none := rfl
@[simp] theorem Decoder.refuse_resLen : d.refuse.resLen = none := rfl
@[simp] theorem Decoder.refuse_resNext : d.refuse.resNext = none := rfl
@[simp] theorem Decoder.refuse_draws : d.refuse.draws = d.draws := rfl
end

section
variable (d : Decoder) (n : Width) (b : BitVec 4) (a : Nat)
@[simp] theorem Decoder.start_phase : (d.start n b a).phase = .busy := rfl
@[simp] theorem Decoder.start_latN : (d.start n b a).latN = n := rfl
@[simp] theorem Decoder.start_latBudget : (d.start n b a).latBudget = b := rfl
@[simp] theorem Decoder.start_latBase : (d.start n b a).latBase = a := rfl
@[simp] theorem Decoder.start_acc : (d.start n b a).acc = 0 := rfl
@[simp] theorem Decoder.start_idx : (d.start n b a).idx = 0 := rfl
@[simp] theorem Decoder.start_resStatus : (d.start n b a).resStatus = .none := rfl
@[simp] theorem Decoder.start_resValue : (d.start n b a).resValue = none := rfl
@[simp] theorem Decoder.start_resLen : (d.start n b a).resLen = none := rfl
@[simp] theorem Decoder.start_resNext : (d.start n b a).resNext = none := rfl
@[simp] theorem Decoder.start_draws : (d.start n b a).draws = d.draws := rfl
end

section
variable (d : Decoder) (w : Nat)
@[simp] theorem Decoder.reset_phase : (d.reset w).phase = .idle := rfl
@[simp] theorem Decoder.reset_resStatus : (d.reset w).resStatus = .none := rfl
@[simp] theorem Decoder.reset_resValue : (d.reset w).resValue = none := rfl
@[simp] theorem Decoder.reset_resLen : (d.reset w).resLen = none := rfl
@[simp] theorem Decoder.reset_resNext : (d.reset w).resNext = none := rfl
theorem Decoder.reset_latBase_lt : (d.reset w).latBase < 2 ^ w := Nat.mod_lt _ (Nat.two_pow_pos w)
end

end Sys2Proof.Machine
end

