-- ==== Sys2Proof/Laws/Ops.lean ====
section
/-!
SUPPORT. One lemma per shared operation, saying once everything it can do.
-/
namespace Sys2Proof.Machine

/-- The latch as a command, taken apart (R24). -/
@[simp] theorem Decoder.running_width (d : Decoder) : d.running.width = d.latN := by
  unfold Decoder.running; split <;> simp_all [Instr.width]

@[simp] theorem Decoder.running_budget (d : Decoder) : d.running.budget = d.latBudget := by
  unfold Decoder.running; split <;> rfl

/-- The legality test of ACCEPT is the well-formedness of the command (R64). -/
theorem legalBudget_eq_wellFormed (i : Instr) : legalBudget i.budget = i.wellFormed := rfl

theorem Decoder.accept_legal {d : Decoder} {n : Width} {b : BitVec 4} {a : Nat} (h : legalBudget b = true) :
    d.accept n b a = d.start n b a := by
  simp [Decoder.accept, h]

theorem Decoder.accept_illegal {d : Decoder} {n : Width} {b : BitVec 4} {a : Nat} (h : legalBudget b = false) :
    d.accept n b a = d.refuse := by
  simp [Decoder.accept, h]

/-- ACCEPT of a word is a start or a refusal (R92). -/
theorem Decoder.acceptWord_cases (d : Decoder) (cmd : CmdWord) (a : Nat) :
    (∃ i, decode cmd = .ok i ∧ i.wellFormed = true ∧ d.acceptWord cmd a = d.start i.width i.budget a) ∨
    d.acceptWord cmd a = d.refuse := by
  unfold Decoder.acceptWord Decoder.accept
  split
  · rename_i i hi
    split
    · rename_i hl
      exact .inl ⟨i, hi, hl, rfl⟩
    · exact .inr rfl
  · exact .inr rfl

/-- The four ways a BYTE step can go (R85, R93), each with its condition. -/
theorem Decoder.consume_cases (d : Decoder) (w : Nat) (byte : Byte) :
    (cont byte = false ∧ d.consume w byte =
      d.complete .ok (some ((d.stage byte).setWidth 64)) (some (BitVec.ofNat 4 (d.idx.toNat + 1)))
        (some (wrapAddr w (d.latBase + d.idx.toNat + 1)))) ∨
    (cont byte = true ∧ d.idx.toNat = 9 ∧ d.consume w byte = d.complete .overflow none none none) ∨
    (cont byte = true ∧ d.idx.toNat ≠ 9 ∧ d.idx.toNat + 1 = d.latBudget.toNat ∧ d.consume w byte =
      d.complete .budgetExceeded
        (some ((d.stage byte ||| fill (widthBits d.latN) d.latBudget.toNat).setWidth 64)) none none) ∨
    (cont byte = true ∧ d.idx.toNat ≠ 9 ∧ d.idx.toNat + 1 ≠ d.latBudget.toNat ∧ d.consume w byte =
      { d with acc := (d.stage byte).setWidth 64, idx := d.idx + 1 }) := by
  unfold Decoder.consume Decoder.complete
  dsimp only
  split
  · exact .inl ⟨‹_›, rfl⟩
  · have hc : cont byte = true := by simpa using ‹¬cont byte = false›
    split
    · exact .inr (.inl ⟨hc, ‹_›, rfl⟩)
    · split
      · exact .inr (.inr (.inl ⟨hc, ‹_›, ‹_›, rfl⟩))
      · exact .inr (.inr (.inr ⟨hc, ‹_›, ‹_›, rfl⟩))

/-- No BYTE step changes the latch (R24). -/
theorem Decoder.consume_latch (d : Decoder) (w : Nat) (byte : Byte) :
    (d.consume w byte).latN = d.latN ∧ (d.consume w byte).latBudget = d.latBudget ∧
      (d.consume w byte).latBase = d.latBase := by
  rcases d.consume_cases w byte with ⟨_, h⟩ | ⟨_, _, h⟩ | ⟨_, _, _, h⟩ | ⟨_, _, _, h⟩ <;> rw [h] <;> simp

theorem Decoder.byteStep_readable {d : Decoder} {w : Nat} {m : Memory} {byte : Byte}
    (h : Memory.read m (d.rdAddr w) = some byte) : d.byteStep w m = .ok (d.consume w byte) := by
  simp [Decoder.byteStep, h]

theorem Decoder.byteStep_stuck {d : Decoder} {w : Nat} {m : Memory}
    (h : Memory.read m (d.rdAddr w) = none) : d.byteStep w m = .error (.stuckUnreadable (d.rdAddr w)) := by
  simp [Decoder.byteStep, h]

theorem Decoder.byteStep_ok_iff {d d' : Decoder} {w : Nat} {m : Memory} :
    d.byteStep w m = .ok d' ↔ ∃ byte, Memory.read m (d.rdAddr w) = some byte ∧ d' = d.consume w byte := by
  cases hb : Memory.read m (d.rdAddr w) with
  | none => simp [Decoder.byteStep_stuck hb]
  | some byte => simp [Decoder.byteStep_readable hb, eq_comm]

/-- The address a BYTE step reads does not depend on anything but the latch and `IDX` (R43). -/
theorem Decoder.rdAddr_eq (d : Decoder) (w : Nat) : d.rdAddr w = (d.latBase + d.idx.toNat) % 2 ^ w := rfl

/-- Both commands run the one shared operation. -/
theorem exec_eq_command (i : Instr) (s : State) : exec i s = command i.width i.budget s := by
  cases i <;> rfl

theorem exec_idle {i : Instr} {s : State} (h : s.dec.phase = .idle) :
    exec i s = .next ((s.setDec (s.dec.accept i.width i.budget s.cmdAddr)).takeOffer) := by
  simp [exec_eq_command, command, h]

theorem exec_busy_readable {i : Instr} {s : State} {byte : Byte} (h : s.dec.phase = .busy)
    (hb : Memory.read s.mem (s.dec.rdAddr s.addrW) = some byte) :
    exec i s = .next (s.setDec (s.dec.consume s.addrW byte)) := by
  simp [exec_eq_command, command, h, Decoder.byteStep_readable hb]

theorem exec_busy_stuck {i : Instr} {s : State} (h : s.dec.phase = .busy)
    (hb : Memory.read s.mem (s.dec.rdAddr s.addrW) = none) :
    exec i s = .fault (.stuckUnreadable (s.dec.rdAddr s.addrW)) := by
  simp [exec_eq_command, command, h, Decoder.byteStep_stuck hb]

/-- Everything a command can do when it answers a next state. -/
theorem exec_next {i : Instr} {s t : State} (h : exec i s = .next t) :
    (s.dec.phase = .idle ∧ t = (s.setDec (s.dec.accept i.width i.budget s.cmdAddr)).takeOffer) ∨
    (s.dec.phase = .busy ∧ ∃ byte, Memory.read s.mem (s.dec.rdAddr s.addrW) = some byte ∧
      t = s.setDec (s.dec.consume s.addrW byte)) := by
  cases hp : s.dec.phase with
  | idle =>
    rw [exec_idle hp] at h
    exact .inl ⟨rfl, by simpa using h.symm⟩
  | busy =>
    cases hb : Memory.read s.mem (s.dec.rdAddr s.addrW) with
    | none =>
      rw [exec_busy_stuck hp hb] at h
      cases h
    | some byte =>
      rw [exec_busy_readable hp hb] at h
      exact .inr ⟨rfl, byte, rfl, by simpa using h.symm⟩

end Sys2Proof.Machine
end

