-- ==== Sys2Proof/Laws/PerInstr.lean ====
section
/-!
SUPPORT. Statements about every command as syntax, one lemma per constructor.
-/
namespace Sys2Proof.Laws.EncodeLegal

/-- The word of a command is legal (R64) exactly where the command is well formed. -/
def Statement (i : Instr) : Prop := legalWord (encode i) = i.wellFormed

theorem decode32 (budget : BitVec 4) : Statement (.decode32 budget) := by
  revert budget; unfold Statement; decide

theorem decode64 (budget : BitVec 4) : Statement (.decode64 budget) := by
  revert budget; unfold Statement; decide

end Sys2Proof.Laws.EncodeLegal
end

