-- ==== Sys2Proof/Laws/Step.lean ====
section
/-!
SUPPORT. Everything a turn and a step can do when they answer a next state.
-/
namespace Sys2Proof.Machine

/-- The block's turn with a command offered to an IDLE block is ACCEPT of the offered word (R92). -/
theorem blockTurn_offered {s : State} (hr : s.rst = false) (hp : s.dec.phase = .idle) (hv : s.cmdValid = true) :
    blockTurn s = .next ((s.setDec (s.dec.acceptWord s.cmd s.cmdAddr)).takeOffer) := by
  unfold blockTurn
  rw [hr, hp, hv]
  unfold Decoder.acceptWord
  cases hd : decode s.cmd with
  | error e => simp [refuseOffer]
  | ok i => simp [exec_idle hp]

theorem blockTurn_busy {s : State} (hr : s.rst = false) (hp : s.dec.phase = .busy) :
    blockTurn s = exec s.dec.running s := by
  simp [blockTurn, hr, hp]

theorem blockTurn_idle {s : State} (hr : s.rst = false) (hp : s.dec.phase = .idle) (hv : s.cmdValid = false) :
    blockTurn s = .next s := by
  simp [blockTurn, hr, hp, hv]

theorem blockTurn_reset {s : State} (hr : s.rst = true) : blockTurn s = .next (resetBlock s) := by
  simp [blockTurn, hr]

/-- Everything the block's turn can do: RESET, ACCEPT, BYTE, or nothing (R91). -/
theorem blockTurn_next {s t : State} (h : blockTurn s = .next t) :
    (s.rst = true ∧ t = resetBlock s) ∨
    (s.rst = false ∧ s.dec.phase = .idle ∧ s.cmdValid = true ∧
      t = (s.setDec (s.dec.acceptWord s.cmd s.cmdAddr)).takeOffer) ∨
    (s.rst = false ∧ s.dec.phase = .busy ∧ ∃ byte, Memory.read s.mem (s.dec.rdAddr s.addrW) = some byte ∧
      t = s.setDec (s.dec.consume s.addrW byte)) ∨
    (s.rst = false ∧ s.dec.phase = .idle ∧ s.cmdValid = false ∧ t = s) := by
  cases hr : s.rst with
  | true => exact .inl ⟨rfl, by simpa [blockTurn_reset hr] using h.symm⟩
  | false =>
    cases hp : s.dec.phase with
    | busy =>
      rw [blockTurn_busy hr hp] at h
      rcases exec_next h with ⟨hi, _⟩ | ⟨_, hb⟩
      · rw [hp] at hi
        cases hi
      · exact .inr (.inr (.inl ⟨rfl, rfl, hb⟩))
    | idle =>
      cases hv : s.cmdValid with
      | true =>
        rw [blockTurn_offered hr hp hv] at h
        exact .inr (.inl ⟨rfl, rfl, rfl, by simpa using h.symm⟩)
      | false =>
        rw [blockTurn_idle hr hp hv] at h
        exact .inr (.inr (.inr ⟨rfl, rfl, rfl, by simpa using h.symm⟩))

theorem offerCommand_next {cmd : CmdWord} {op : AddrOperand} {s t : State} (h : offerCommand cmd op s = .next t) :
    ∃ a, operandAddr s.dec op = .ok a ∧ a < 2 ^ s.addrW ∧ t = s.setOffer cmd a := by
  unfold offerCommand at h
  split at h
  · cases h
  · rename_i a ha
    split at h
    · rename_i hf
      exact ⟨a, ha, by simpa [isAddr] using hf, by simpa using h.symm⟩
    · cases h

theorem hostRead_next {r : HostReg} {s t : State} (h : hostRead r s = .next t) :
    ∃ v, s.dec.readReg r = .ok v ∧ t = s.setLastRead v := by
  unfold hostRead at h
  split at h
  · exact ⟨_, ‹_›, by simpa using h.symm⟩
  · cases h

theorem placeByte_next {a : Nat} {b : Byte} {s t : State} (h : placeByte a b s = .next t) :
    a < 2 ^ s.addrW ∧ s.dec.inWindow s.addrW a = false ∧ t = s.setMem (Memory.write s.mem a b) := by
  unfold placeByte at h
  split at h
  · cases h
  · rename_i hf
    split at h
    · cases h
    · rename_i hw
      exact ⟨by simpa [isAddr] using hf, by simpa using hw, by simpa using h.symm⟩

/-- What leaves the host's list when the block has the turn: nothing, or a `wait`. -/
def BlockHasTurn (s s' : State) : Prop :=
  s' = s ∨ ∃ rest, s.host = .wait :: rest ∧ s' = s.setHost rest

/-- Everything a step can do: the block's turn, or one move of the host (R91). -/
theorem step_next {s t : State} (h : step s = .next t) :
    (∃ s', BlockHasTurn s s' ∧ blockTurn s' = .next t) ∨
    (∃ rest, s.host = .await :: rest ∧ t = s.setHost rest) ∨
    (∃ cmd op rest, s.host = .offer cmd op :: rest ∧ s.cmdValid = false ∧
      ∃ a, operandAddr s.dec op = .ok a ∧ a < 2 ^ s.addrW ∧ t = (s.setHost rest).setOffer cmd a) ∨
    (∃ r rest v, s.host = .read r :: rest ∧ s.dec.readReg r = .ok v ∧ t = (s.setHost rest).setLastRead v) ∨
    (∃ a b rest, s.host = .place a b :: rest ∧ a < 2 ^ s.addrW ∧ s.dec.inWindow s.addrW a = false ∧
      t = (s.setHost rest).setMem (Memory.write s.mem a b)) ∨
    (∃ rest, s.host = .assertRst :: rest ∧ t = (resetBlock (s.setHost rest)).setRst true) ∨
    (∃ rest, s.host = .releaseRst :: rest ∧ t = (s.setHost rest).setRst false) := by
  unfold step turn at h
  split at h
  · exact .inl ⟨s, .inl rfl, h⟩
  · rename_i rest hh
    exact .inl ⟨s.setHost rest, .inr ⟨rest, hh, rfl⟩, h⟩
  · rename_i rest hh
    split at h
    · exact .inr (.inl ⟨rest, hh, by simpa using h.symm⟩)
    · exact .inl ⟨s, .inl rfl, h⟩
  · rename_i cmd op rest hh
    split at h
    · exact .inl ⟨s, .inl rfl, h⟩
    · rename_i hv
      obtain ⟨a, ha, hlt, ht⟩ := offerCommand_next h
      exact .inr (.inr (.inl ⟨cmd, op, rest, hh, by simpa using hv, a, ha, hlt, ht⟩))
  · rename_i r rest hh
    obtain ⟨v, hv, ht⟩ := hostRead_next h
    exact .inr (.inr (.inr (.inl ⟨r, rest, v, hh, hv, ht⟩)))
  · rename_i a b rest hh
    obtain ⟨hlt, hw, ht⟩ := placeByte_next h
    exact .inr (.inr (.inr (.inr (.inl ⟨a, b, rest, hh, hlt, hw, ht⟩))))
  · rename_i rest hh
    exact .inr (.inr (.inr (.inr (.inr (.inl ⟨rest, hh, by simpa using h.symm⟩)))))
  · rename_i rest hh
    exact .inr (.inr (.inr (.inr (.inr (.inr ⟨rest, hh, by simpa using h.symm⟩)))))

/-- Letting the block have the turn changes nothing but the host's list. -/
theorem BlockHasTurn.same {s s' : State} (h : BlockHasTurn s s') :
    s'.addrW = s.addrW ∧ s'.dec = s.dec ∧ s'.cmdValid = s.cmdValid ∧ s'.cmd = s.cmd ∧ s'.cmdAddr = s.cmdAddr ∧
      s'.rst = s.rst ∧ s'.mem = s.mem := by
  rcases h with rfl | ⟨r, _, rfl⟩ <;> simp

/-- Everything a step can do to the registers of the instance: nothing, RESET, ACCEPT, or BYTE (R91). -/
theorem step_dec {s t : State} (h : step s = .next t) :
    t.dec = s.dec ∨
    ((s.rst = true ∨ ∃ rest, s.host = .assertRst :: rest) ∧ t.dec = s.dec.reset s.addrW) ∨
    (s.rst = false ∧ s.dec.phase = .idle ∧ s.cmdValid = true ∧ t.cmdValid = false ∧
      t.dec = s.dec.acceptWord s.cmd s.cmdAddr) ∨
    (s.rst = false ∧ s.dec.phase = .busy ∧ ∃ byte, Memory.read s.mem (s.dec.rdAddr s.addrW) = some byte ∧
      t.dec = s.dec.consume s.addrW byte) := by
  rcases step_next h with ⟨s', hb, hs⟩ | ⟨r, hh, rfl⟩ | ⟨c, o, r, hh, hv, a, ha, hlt, rfl⟩ |
    ⟨_, _, _, hh, hr, rfl⟩ | ⟨a, b, r, hh, hlt, hw, rfl⟩ | ⟨r, hh, rfl⟩ | ⟨r, hh, rfl⟩
  · obtain ⟨e1, e2, e3, e4, e5, e6, e7⟩ := hb.same
    rcases blockTurn_next hs with ⟨hr, rfl⟩ | ⟨hr, hp, hv, rfl⟩ | ⟨hr, hp, byte, hby, rfl⟩ | ⟨hr, hp, hv, rfl⟩
    · exact .inr (.inl ⟨.inl (e6 ▸ hr), by simp [resetBlock, e2, e1]⟩)
    · exact .inr (.inr (.inl ⟨e6 ▸ hr, e2 ▸ hp, e3 ▸ hv, rfl, by simp [e2, e4, e5]⟩))
    · exact .inr (.inr (.inr ⟨e6 ▸ hr, e2 ▸ hp, byte, by rw [← e7, ← e2, ← e1]; exact hby, by simp [e2, e1]⟩))
    · exact .inl e2
  · exact .inl rfl
  · exact .inl rfl
  · exact .inl rfl
  · exact .inl rfl
  · exact .inr (.inl ⟨.inr ⟨r, hh⟩, rfl⟩)
  · exact .inl rfl

/-- With no host move pending, a step is the block's turn. -/
theorem step_eq_blockTurn {s : State} (h : s.host = []) : step s = blockTurn s := by
  simp [step, turn, h]

end Sys2Proof.Machine
end

