-- ==== Sys2Proof/Laws/Runs.lean ====
section
/-!
SUPPORT. Runs of several steps, the bytes a statement speaks of, and the registers' invariant under each operation.
-/
namespace Sys2Proof.Machine

/-- One more step at the end of a run. -/
theorem runSteps_succ {k : Nat} {s t : State} (h : runSteps k s = .next t) : runSteps (k + 1) s = step t := by
  induction k generalizing s with
  | zero =>
    cases h
    unfold runSteps
    cases step t <;> rfl
  | succ k ih =>
    unfold runSteps at h ⊢
    cases hs : step s with
    | next u =>
      rw [hs] at h
      exact ih h
    | fault f =>
      rw [hs] at h
      cases h
    | refused r =>
      rw [hs] at h
      cases h

/-- A readable byte of the stream is the byte a statement speaks of (R41, R43). -/
theorem State.stream_readable {s : State} {base j : Nat} (h : (s.streamByte base j).isSome = true) :
    Memory.read s.mem (ea s.addrW base j) = some (s.stream base j) := by
  unfold State.stream State.streamByte at *
  unfold ea wrapAddr
  cases hx : Memory.read s.mem ((base + j) % 2 ^ s.addrW) <;> simp_all

/-- RESET establishes the registers' invariant, from any registers. -/
theorem Decoder.reset_inv (w : Nat) (d : Decoder) : Decoder.Inv w (d.reset w) := by
  constructor <;> simp [d.reset_latBase_lt w]

/-- A refusal of an IDLE instance keeps the registers' invariant. -/
theorem Decoder.refuse_inv {w : Nat} {d : Decoder} (hi : d.phase = .idle) (h : Decoder.Inv w d) :
    Decoder.Inv w d.refuse := by
  constructor <;> simp [hi, h.baseFits]

/-- Starting a legal command at an address establishes the registers' invariant. -/
theorem Decoder.start_inv {w a : Nat} {n : Width} {b : BitVec 4} (d : Decoder) (ha : a < 2 ^ w)
    (hb : 1 ≤ b.toNat ∧ b.toNat ≤ 10) : Decoder.Inv w (d.start n b a) := by
  constructor <;> simp [ha, hb.1, hb.2]
  omega

end Sys2Proof.Machine
end

