-- ==== Sys2Proof/Tests/Slice0.lean ====
section
/-!
SUPPORT. The model's own tests: words and worked examples of the spec (95_test_vectors.md and the rules' examples), one
step each, and a named witness for the hypotheses of every statement.
-/
namespace Sys2Proof.Tests

open Sys2Proof.Machine

/-! ### States to test on (ADDR_W = 16 as in 95_test_vectors.md) -/

/-- An idle machine over 16-bit addresses and the given stream. -/
def idleState (m : Memory) : State := { State.reset with addrW := 16, mem := m }

/-- The same with a command word offered at an address. -/
def offered (cmd : CmdWord) (addr : Nat) (m : Memory) : State :=
  { idleState m with cmdValid := true, cmd := cmd, cmdAddr := addr }

/-- A command in flight at byte `i` with the partial value `acc`. -/
def running (n : Width) (b : BitVec 4) (base : Nat) (i : BitVec 4) (acc : BitVec 64) (m : Memory) : State :=
  (idleState m).setDec
    { Decoder.initial with phase := .busy, latN := n, latBudget := b, latBase := base, idx := i, acc := acc }

/-- Ten bytes from 0x1000. -/
def ten (b0 b1 b2 b3 b4 b5 b6 b7 b8 b9 : Byte) : Memory :=
  [(0x1000, b0), (0x1001, b1), (0x1002, b2), (0x1003, b3), (0x1004, b4), (0x1005, b5), (0x1006, b6), (0x1007, b7),
   (0x1008, b8), (0x1009, b9)]

/-- The bytes of S3 of 95_test_vectors.md with a chosen last byte. -/
def s3Bytes (last : Byte) : Memory := ten 0xc3 0xc5 0xc7 0xc9 0xcb 0xcd 0xcf 0xd1 0xd3 last

/-- Whether an outcome is a next state with the property `p`. -/
def nextWith (o : Host.Outcome State Fault Refusal) (p : State → Bool) : Bool :=
  match o with
  | .next t => p t
  | _ => false

/-- Whether an outcome is the fault `f`. -/
def faultsWith (o : Host.Outcome State Fault Refusal) (f : Fault) : Bool :=
  match o with
  | .fault g => decide (g = f)
  | _ => false

/-! ### Well-formedness and decoding -/

/-- The one check of WellFormed refuses budget 0 and budgets above 10 (R62, R64). -/
theorem test_wellFormed_refuses_budget_0 : (Instr.decode64 0).wellFormed = false := by decide
theorem test_wellFormed_refuses_budget_11 : (Instr.decode32 11).wellFormed = false := by decide
theorem test_wellFormed_takes_budget_10 : (Instr.decode32 10).wellFormed = true := by decide

/-- R66: `0000 bbbb`; b = 10 is `0000 1010`. -/
theorem test_decode_decode32 : decode 0b00001010#8 = .ok (.decode32 10) := by decide
/-- R66: `0001 bbbb`; b = 4 is `0001 0100` (program P2). -/
theorem test_decode_decode64 : decode 0b00010100#8 = .ok (.decode64 4) := by decide
/-- Table 2.1: 0x9A has RSV = 100. -/
theorem test_decode_rejects_reserved : decode 0b10011010#8 = .error .reservedBits := by decide
/-- R73: `decode64 b=4` is 0x10 | 4. -/
theorem test_encode_decode64 : encode (.decode64 4) = 0x14#8 := by decide
/-- Table 2.1: 0x1B is illegal (budget 11). -/
theorem test_legal_refuses_budget_11 : legalWord 0x1B#8 = false := by decide
/-- The table's first row with its BUDGET bits zero is still that row's command (R66). -/
theorem test_table_word : decodeTableWord 8 0x00 = some (.decode32 0) := by decide

/-! ### One step of each command -/

/-- P4, command 1: a varint at 0xFFFF goes on at 0x0000; the byte 01 at IDX 1 completes with 0x80, length 2. -/
theorem test_decode64_completes_across_the_top :
    nextWith (exec (.decode64 10) (running .w64 10 0xFFFF 1 0 [(0x0000, 0x01), (0xFFFF, 0x80)])) (fun t =>
      decide (t.dec.resStatus = .ok ∧ t.dec.resValue = some 0x80 ∧ t.dec.resLen = some 2 ∧
        t.dec.resNext = some 0x0001)) = true := by decide

/-- S6, b = 9: the speculative value of DECODE64 at the 9th byte. -/
theorem test_decode64_budget_exceeded :
    nextWith (exec (.decode64 9) (running .w64 9 0x1000 8 0xA33E6CB931E2C3 (s3Bytes 0x7f))) (fun t =>
      decide (t.dec.resStatus = .budgetExceeded ∧ t.dec.resValue = some 0xD3A33E6CB931E2C3 ∧ t.dec.resLen = none)) =
      true := by decide

/-- R144: `80 80 80 80 80 01` ends with 0, length 6: no wraparound of the sixth payload. -/
theorem test_decode32_stops_accumulating :
    nextWith (exec (.decode32 10) (running .w32 10 0x1000 5 0 [(0x1005, 0x01)])) (fun t =>
      decide (t.dec.resStatus = .ok ∧ t.dec.resValue = some 0 ∧ t.dec.resLen = some 6)) = true := by decide

/-- P4, command 2: budget 1 and the byte 81 give the 32-bit speculative value, zero-extended. -/
theorem test_decode32_budget_exceeded :
    nextWith (exec (.decode32 1) (running .w32 1 0x0001 0 0 [(0x0001, 0x81)])) (fun t =>
      decide (t.dec.resStatus = .budgetExceeded ∧ t.dec.resValue = some 0x00000000FFFFFF81)) = true := by decide

/-! ### The other steps and the datapath -/

/-- R92's example: ACCEPT of 0x1A at 0x1000. -/
theorem test_accept_latches :
    nextWith (step (offered 0x1A 0x1000 [])) (fun t =>
      decide (t.dec.phase = .busy ∧ t.dec.latN = .w64 ∧ t.dec.latBudget = 10 ∧ t.dec.latBase = 0x1000)) = true := by
  decide

/-- Table 2.6: reset while BUSY abandons the command. -/
theorem test_reset_while_busy :
    nextWith (step ((running .w64 10 0x1000 3 7 []).setHost [.assertRst])) (fun t =>
      decide (t.dec.phase = .idle ∧ t.dec.resStatus = .none)) = true := by decide

/-- Table 2.3. -/
theorem test_contrib_tenth_byte : contrib 64 9 0x7F = 0x8000000000000000#64 := by decide
theorem test_fill_32 : fill 32 4 = 0xF0000000#32 ∧ fill 32 5 = 0#32 := by decide
/-- Table 2.2: `80` nine times and `00` under b = 9. -/
theorem test_scan_budget : scan 9 (fun j => if j < 9 then 0x80 else 0x00) = .bud := by decide

/-- R73's form with hexadecimal address, capitals and a comment. -/
theorem test_parse_line :
    parseLine ['D', 'e', 'c', 'o', 'd', 'e', '6', '4', ' ', 'b', '=', '4', ',', ' ', '[', '0', 'x', '2', '0', ']', ' ',
      ';', 'x'] = some (some ⟨.w64, some 4, .imm 0x20⟩) := by decide
/-- R74's pseudo-instruction at RES_NEXT. -/
theorem test_parse_pseudo :
    parseLine ['d', 'e', 'c', 'o', 'd', 'e', '3', '2', ' ', '[', 'R', 'E', 'S', '_', 'N', 'E', 'X', 'T', ']'] =
      some (some ⟨.w32, none, .resNext⟩) := by decide

/-! ### Witnesses: each statement's hypotheses are met by some state and operands -/

theorem witness_tableWord : 0x1A < 256 ∧ decodeTableWord 8 0x1A = some (.decode64 10) := by decide

theorem witness_offers_decode64 : (offered 0x1A 0x1000 (s3Bytes 0x7f)).Offers (.decode64 10) :=
  ⟨rfl, rfl, rfl, rfl, by decide⟩

theorem witness_offers_decode32 : (offered 0x0A 0x1000 (s3Bytes 0x7f)).Offers (.decode32 10) :=
  ⟨rfl, rfl, rfl, rfl, by decide⟩

theorem witness_stepRunsTheOfferedCommand :
    let s := offered 0x05 0xFFFF []
    s.host = [] ∧ s.rst = false ∧ s.dec.phase = .idle ∧ s.cmdValid = true ∧ decode s.cmd = .ok (.decode32 5) := by
  decide

theorem witness_stepRunsTheCommandInFlight :
    let s := running .w32 10 0x1000 0 0 []
    let s' := running .w64 1 0x1000 0 0 []
    s.host = [] ∧ s.rst = false ∧ s.dec.phase = .busy ∧ s.dec.latN = .w32 ∧
    s'.host = [] ∧ s'.rst = false ∧ s'.dec.phase = .busy ∧ s'.dec.latN = .w64 := by
  decide

theorem witness_waitLeavesTheTurn :
    let s := (idleState []).setHost [.wait, .await]
    s.host = .wait :: [.await] ∧ s.rst = false ∧ s.dec.phase = .idle ∧ s.cmdValid = false := by
  decide

/-- An IDLE state (all that AcceptTakesTheOffer asks), legal budgets at both ends, illegal ones next to them. -/
theorem witness_accept :
    (idleState []).dec.phase = .idle ∧
    (1 ≤ (Instr.decode64 1).budget.toNat ∧ (Instr.decode64 1).budget.toNat ≤ 10) ∧
    (1 ≤ (Instr.decode32 10).budget.toNat ∧ (Instr.decode32 10).budget.toNat ≤ 10) ∧
    ¬(1 ≤ (Instr.decode64 0).budget.toNat ∧ (Instr.decode64 0).budget.toNat ≤ 10) ∧
    ¬(1 ≤ (Instr.decode32 11).budget.toNat ∧ (Instr.decode32 11).budget.toNat ≤ 10) := by
  decide

theorem witness_illegalWords :
    ∀ cmd ∈ [0x00#8, 0x0B#8, 0x0F#8, 0x10#8, 0x1B#8, 0x20#8, 0x9A#8, 0xFF#8],
      let s := offered cmd 0x1000 []
      s.host = [] ∧ s.rst = false ∧ s.dec.phase = .idle ∧ s.cmdValid = true ∧
      ¬(s.cmd.extractLsb' 5 3 = 0 ∧ 1 ≤ (s.cmd.extractLsb' 0 4).toNat ∧ (s.cmd.extractLsb' 0 4).toNat ≤ 10) := by
  decide

/-- The four cases of the BYTE step: a terminator at index 9, the cap, the budget at index 8, and going on. -/
theorem witness_byteStep :
    let r (s : State) := Memory.read s.mem ((s.dec.latBase + s.dec.idx.toNat) % 2 ^ s.addrW)
    let s1 := running .w64 10 0x1000 9 0 (s3Bytes 0x7f)
    let s2 := running .w32 10 0x1000 9 0 (s3Bytes 0x81)
    let s3 := running .w64 9 0x1000 8 0 (s3Bytes 0x7f)
    let s4 := running .w32 9 0x1000 7 0 (s3Bytes 0x7f)
    (s1.dec.phase = .busy ∧ r s1 = some 0x7f ∧ (0x7f#8).getLsbD 7 = false) ∧
    (s2.dec.phase = .busy ∧ r s2 = some 0x81 ∧ (0x81#8).getLsbD 7 = true ∧ s2.dec.idx.toNat = 9) ∧
    (s3.dec.phase = .busy ∧ r s3 = some 0xd3 ∧ s3.dec.idx.toNat + 1 = s3.dec.latBudget.toNat) ∧
    (s4.dec.phase = .busy ∧ r s4 = some 0xd1 ∧ s4.dec.idx.toNat + 1 ≠ s4.dec.latBudget.toNat) := by
  decide

theorem witness_decode64Delivers :
    let s := running .w64 10 0x1000 9 0 (s3Bytes 0x7f)
    s.dec.phase = .busy ∧ s.dec.latN = .w64 ∧ s.dec.latBudget = 10 ∧ s.dec.idx.toNat ≤ 9 ∧
    Memory.read s.mem ((s.dec.latBase + s.dec.idx.toNat) % 2 ^ s.addrW) = some 0x7f ∧ (0x7f#8).toNat < 128 := by
  decide

/-- At index 4, the last of the window, and at index 5, the first past it. -/
theorem witness_decode32Delivers :
    ∀ i ∈ [4#4, 5#4],
      let s := running .w32 10 0x1000 i 0 (ten 0 0 0 0 0x7f 0x7f 0 0 0 0)
      s.dec.phase = .busy ∧ s.dec.latN = .w32 ∧ s.dec.latBudget = 10 ∧ s.dec.idx.toNat ≤ 9 ∧
      Memory.read s.mem ((s.dec.latBase + s.dec.idx.toNat) % 2 ^ s.addrW) = some 0x7f ∧ (0x7f#8).toNat < 128 := by
  decide

theorem witness_unreadableByte :
    let s := running .w64 10 0xFFFF 1 0 [(0xFFFF, 0x80)]
    s.dec.phase = .busy ∧ Memory.read s.mem ((s.dec.latBase + s.dec.idx.toNat) % 2 ^ s.addrW) = none := by
  decide

/-- A command in flight that goes on, one that completes, and a refused one. -/
theorem witness_commandsFrame :
    (∃ t, exec (.decode64 3) (running .w64 10 0x1000 0 0 (s3Bytes 0x7f)) = .next t ∧ t.dec.phase = .busy) ∧
    (∃ t, exec (.decode32 3) (running .w32 10 0x1000 9 0 (s3Bytes 0x7f)) = .next t ∧ t.dec.phase = .idle) ∧
    (∃ t, exec (.decode32 0) (idleState []) = .next t ∧ (Instr.decode32 0).wellFormed = false) :=
  ⟨⟨_, rfl, rfl⟩, ⟨_, rfl, rfl⟩, ⟨_, rfl, rfl⟩⟩

theorem witness_offerWhileBusy :
    let s := (running .w64 10 0x1000 0 0 (s3Bytes 0x7f)).setOffer 0x05 0x2000
    let s' := s.setHost [.offer 0x1A (.imm 0)]
    (s.rst = false ∧ s.dec.phase = .busy ∧ s.cmdValid = true ∧ (∃ t, step s = .next t) ∧ s.host = []) ∧
    (s'.rst = false ∧ s'.dec.phase = .busy ∧ s'.cmdValid = true ∧ (∃ t, step s' = .next t) ∧
      s'.host = [.offer 0x1A (.imm 0)]) :=
  ⟨⟨rfl, rfl, rfl, ⟨_, rfl⟩, rfl⟩, ⟨rfl, rfl, rfl, ⟨_, rfl⟩, rfl⟩⟩

theorem witness_readOfNoValue :
    ((idleState []).setHost [.read .resValue]).dec.resValue = none ∧
    ((idleState []).setHost [.read .resLen]).dec.resLen = none ∧
    ((idleState []).setHost [.read .resNext]).dec.resNext = none := by decide

/-- A completed command: every result register valid. -/
def completed : State :=
  (idleState []).setDec { Decoder.initial with
    latN := .w64, latBudget := 10, latBase := 0xFFFF, resStatus := .ok, resValue := some 0x80, resLen := some 2,
    resNext := some 0x0001 }

theorem witness_readReturns :
    completed.dec.phase = .idle ∧ completed.dec.resStatus = .ok ∧ completed.dec.resValue = some 0x80 ∧
    completed.dec.resLen = some 2 ∧ completed.dec.resNext = some 0x0001 ∧
    (completed.setHost [.read .resNext]).host = [.read .resNext] ∧
    (running .w64 10 0 0 0 []).dec.phase = .busy := by decide

/-- The last address of the space, a valid `RES_NEXT`, and an invalid one. -/
theorem witness_offerPuts :
    completed.cmdValid = false ∧ 0xFFFF < 2 ^ completed.addrW ∧ completed.dec.resNext = some 0x0001 ∧
    0x0001 < 2 ^ completed.addrW ∧ (idleState []).cmdValid = false ∧ (idleState []).dec.resNext = none ∧
    (completed.setHost [.offer 0x1A .resNext]).host = [.offer 0x1A .resNext] := by decide

/-- An idle block, and a BUSY one with the address just past its window (which wraps). -/
theorem witness_placedByte :
    0xFFFF < 2 ^ (idleState []).addrW ∧ (idleState []).dec.phase = .idle ∧
    (let s := running .w64 10 0xFFFE 0 0 []
     0x0008 < 2 ^ s.addrW ∧ s.dec.phase = .busy ∧ ∀ j, j ≤ 9 → (s.dec.latBase + j) % 2 ^ s.addrW ≠ 0x0008) := by
  decide

theorem witness_writeDuringCommand :
    let s := running .w64 1 0xFFFE 0 0 []
    s.dec.phase = .busy ∧
    (s.setHost [.place 0xFFFE 0x00]).host = .place ((s.dec.latBase + 0) % 2 ^ s.addrW) 0x00 :: [] ∧
    (s.setHost [.place 0x0007 0x00]).host = .place ((s.dec.latBase + 9) % 2 ^ s.addrW) 0x00 :: [] := by
  decide

theorem witness_resetFromAnyState :
    ((running .w64 10 0 3 7 []).setHost [.assertRst]).host = [.assertRst] ∧
    ((idleState []).setRst true).host = [] ∧ ((idleState []).setRst true).rst = true ∧
    (((idleState []).setRst true).setHost [.releaseRst]).host = [.releaseRst] := by decide

/-- The results change at an ACCEPT, at a completion, and at a reset. -/
theorem witness_resultsChange :
    (∃ t, step (offered 0x00 0 []) = .next t ∧ t.dec.resStatus ≠ (offered 0x00 0 []).dec.resStatus) ∧
    (∃ t, step (running .w64 1 0x1000 0 0 (s3Bytes 0x7f)) = .next t ∧
      t.dec.resStatus ≠ (running .w64 1 0x1000 0 0 (s3Bytes 0x7f)).dec.resStatus) ∧
    (∃ t, step (completed.setHost [.assertRst]) = .next t ∧
      t.dec.resStatus ≠ (completed.setHost [.assertRst]).dec.resStatus) :=
  ⟨⟨_, rfl, by decide⟩, ⟨_, rfl, by decide⟩, ⟨_, rfl, by decide⟩⟩

/-- The latch changes, and the block becomes BUSY, at the ACCEPT of a legal command. -/
theorem witness_latchChanges :
    ∃ t, step (offered 0x1A 0x1000 []) = .next t ∧ t.dec.latN ≠ (offered 0x1A 0x1000 []).dec.latN ∧
      (offered 0x1A 0x1000 []).dec.phase = .idle ∧ t.dec.phase = .busy :=
  ⟨_, rfl, by decide, rfl, rfl⟩

/-- BUSY ends by each of the three statuses and by reset. -/
theorem witness_busyEnds :
    (∃ t, step (running .w64 10 0x1000 9 0 (s3Bytes 0x7f)) = .next t ∧ t.dec.phase = .idle) ∧
    (∃ t, step (running .w64 10 0x1000 9 0 (s3Bytes 0x81)) = .next t ∧ t.dec.phase = .idle) ∧
    (∃ t, step (running .w32 9 0x1000 8 0 (s3Bytes 0x81)) = .next t ∧ t.dec.phase = .idle) ∧
    (∃ t, step ((running .w32 9 0x1000 8 0 []).setHost [.assertRst]) = .next t ∧ t.dec.phase = .idle) :=
  ⟨⟨_, rfl, rfl⟩, ⟨_, rfl, rfl⟩, ⟨_, rfl, rfl⟩, ⟨_, rfl, rfl⟩⟩

theorem witness_hostWrites :
    ∃ t, step ((idleState []).setHost [.place 0xFFFF 0x80]) = .next t ∧
      Memory.read t.mem 0xFFFF ≠ Memory.read ((idleState []).setHost [.place 0xFFFF 0x80]).mem 0xFFFF :=
  ⟨_, rfl, by decide⟩

/-- A state with a command in flight meets the invariant, and its step is a next state. -/
theorem witness_invariant :
    State.Inv (running .w32 10 0x1000 4 0x0FFFFFFF (s3Bytes 0x7f)) ∧
    ∃ t, step (running .w32 10 0x1000 4 0x0FFFFFFF (s3Bytes 0x7f)) = .next t := by
  refine ⟨⟨by decide, by decide, by decide, by decide, by decide, ?_⟩, ⟨_, rfl⟩⟩
  constructor <;> simp [running, idleState, Decoder.initial, State.reset]

/-- Indexes and budgets at the ends of their ranges. -/
theorem witness_datapath_ranges :
    10 ≤ 10 ∧ (4 < widthWindow .w32 ∧ 9 < widthWindow .w64) ∧
    (5 ≤ 5 ∧ ∀ j, j < 5 → (fun _ => 0x80#8 : Nat → Byte) j = (fun _ => 0x80#8 : Nat → Byte) j) ∧
    (28 < 32 ∧ 63 < 64) ∧ (1 ≤ 1 ∧ 9 ≤ 9) ∧ (1 ≤ 1 ∧ 4 ≤ 4) ∧ 5 ≤ 5 ∧
    9 ≤ (if (Width.w64 : Width) = .w64 then 9 else 4) ∧ 4 ≤ (if (Width.w32 : Width) = .w64 then 9 else 4) ∧
    (1 ≤ 1 ∧ 10 ≤ 10) := by
  decide

/-- A scan that succeeds at index 1, and a decode that does, under budgets on both sides of its length. -/
theorem witness_budget :
    (1 ≤ 2 ∧ 2 ≤ 10 ∧ scan 10 (fun j => if j = 0 then 0xac else 0x02) = .term 1 ∧ 1 + 1 ≤ 2 ∧ 1 < 1 + 1) ∧
    (∃ r, decodeTransaction .w64 10 16 0x1000 [(0x1000, 0xac), (0x1001, 0x02)] = some r ∧ r.status = .ok ∧
      r.len = some 2 ∧ 2 ≤ 2) :=
  ⟨by decide, ⟨_, rfl, rfl, rfl, Nat.le_refl _⟩⟩

theorem witness_machineAgrees :
    (offered 0x1A 0x1000 (s3Bytes 0x7f)).Offers (.decode64 10) ∧ (Instr.decode64 10).wellFormed = true ∧
    ∃ r, decodeTransaction .w64 10 16 0x1000 (s3Bytes 0x7f) = some r :=
  ⟨witness_offers_decode64, by decide, ⟨_, rfl⟩⟩

/-- The readability and continuation hypotheses of the OK statements, with the terminator at index 9. -/
theorem witness_ok_at_9 :
    let s := offered 0x1A 0x1000 (s3Bytes 0x7f)
    (10#4).toNat ≤ 10 ∧ 9 + 1 ≤ (10#4).toNat ∧ (∀ j, j ≤ 9 → (s.streamByte s.cmdAddr j).isSome = true) ∧
    (∀ j, j < 9 → (s.stream s.cmdAddr j).getLsbD 7 = true) ∧ (s.stream s.cmdAddr 9).getLsbD 7 = false := by
  decide

/-- The same for DECODE32. -/
theorem witness_ok32_at_9 :
    let s := offered 0x0A 0x1000 (s3Bytes 0x7f)
    s.Offers (.decode32 10) ∧ (∀ j, j ≤ 9 → (s.streamByte s.cmdAddr j).isSome = true) ∧
    (∀ j, j < 9 → (s.stream s.cmdAddr j).getLsbD 7 = true) ∧ (s.stream s.cmdAddr 9).getLsbD 7 = false :=
  ⟨witness_offers_decode32, by decide, by decide, by decide⟩

/-- The hypotheses of the overflow statements. -/
theorem witness_overflow :
    (offered 0x1A 0x1000 (s3Bytes 0x81)).Offers (.decode64 10) ∧
    (offered 0x0A 0x1000 (s3Bytes 0x81)).Offers (.decode32 10) ∧
    (∀ j, j < 10 → ((offered 0x1A 0x1000 (s3Bytes 0x81)).streamByte 0x1000 j).isSome = true) ∧
    (∀ j, j < 10 → ((offered 0x1A 0x1000 (s3Bytes 0x81)).stream 0x1000 j).getLsbD 7 = true) ∧
    (∀ j, j < 10 → ((offered 0x0A 0x1000 (s3Bytes 0x81)).streamByte 0x1000 j).isSome = true) ∧
    (∀ j, j < 10 → ((offered 0x0A 0x1000 (s3Bytes 0x81)).stream 0x1000 j).getLsbD 7 = true) :=
  ⟨⟨rfl, rfl, rfl, rfl, by decide⟩, ⟨rfl, rfl, rfl, rfl, by decide⟩, by decide, by decide, by decide, by decide⟩

/-- The hypotheses of the budget statements at b = 1, 4, 5 and 9, for both widths. -/
theorem witness_budgetExceeded :
    ∀ b ∈ [1#4, 4#4, 5#4, 9#4],
      let s := offered (encode (.decode64 b)) 0x1000 (s3Bytes 0x7f)
      let s' := offered (encode (.decode32 b)) 0x1000 (s3Bytes 0x7f)
      s.cmd = encode (.decode64 b) ∧ s'.cmd = encode (.decode32 b) ∧ s.dec.phase = .idle ∧ s.cmdValid = true ∧
      1 ≤ b.toNat ∧ b.toNat < 10 ∧ (∀ j, j < b.toNat → (s.streamByte s.cmdAddr j).isSome = true) ∧
      (∀ j, j < b.toNat → (s.stream s.cmdAddr j).getLsbD 7 = true) ∧
      (∀ j, j < b.toNat → (s'.streamByte s'.cmdAddr j).isSome = true) ∧
      (∀ j, j < b.toNat → (s'.stream s'.cmdAddr j).getLsbD 7 = true) := by
  decide

/-- Both forms of the caller's duty (R47): all ten bytes, and only the bytes up to the terminator. -/
theorem witness_callerDuty :
    ((offered 0x1A 0x1000 (s3Bytes 0x81)).CallerDuty 0x1000 10) ∧
    ((offered 0x1A 0x1000 [(0x1000, 0xac), (0x1001, 0x02)]).CallerDuty 0x1000 10) ∧
    ((offered 0x1A 0x1000 [(0x1000, 0xac), (0x1001, 0x02)]).Offers (.decode64 10)) :=
  ⟨.inl (by decide), .inr ⟨1, by decide, by decide, by decide⟩, ⟨rfl, rfl, rfl, rfl, by decide⟩⟩

/-- Two machines with different pasts and the same command and bytes. -/
theorem witness_noCarriedState :
    let m : Memory := [(0x1000, 0xac), (0x1001, 0x02)]
    let s := offered 0x1A 0x1000 m
    let s' := { completed with cmdValid := true, cmd := 0x1A, cmdAddr := 0x1000, mem := m }
    s.host = [] ∧ s'.host = [] ∧ s.rst = false ∧ s'.rst = false ∧ s.dec.phase = .idle ∧ s'.dec.phase = .idle ∧
    s.cmdValid = true ∧ s'.cmdValid = true ∧ s'.cmd = s.cmd ∧ s'.cmdAddr = s.cmdAddr ∧ s'.addrW = s.addrW ∧
    legalWord s.cmd = true ∧ s.dec ≠ s'.dec ∧
    ∀ j, j < scanReads (s.cmd.extractLsb' 0 4).toNat (scan (s.cmd.extractLsb' 0 4).toNat (s.stream s.cmdAddr)) →
      s'.streamByte s.cmdAddr j = s.streamByte s.cmdAddr j := by
  decide

/-- Two instances whose moves interleave, with a host write between them. -/
theorem witness_instances :
    let sys : System := ⟨16, [(0x1000, 0xac), (0x1001, 0x02)], [Decoder.initial, Decoder.initial]⟩
    sys.decs[1]? = some Decoder.initial ∧
    (sysRun [.accept 0 0x1A 0x1000, .accept 1 0x0A 0x1000, .byte 1, .byte 0, .place 0x2000 0x00, .byte 1] sys).isSome =
      true := by
  decide

theorem witness_assembler :
    (¬(1 ≤ 0 ∧ 0 ≤ 10) ∧ ¬(1 ≤ 11 ∧ 11 ≤ 10)) ∧ ((some 1 = some 1 ∧ 1 ≤ 1 ∧ 1 ≤ 10) ∨ (some 1 = none ∧ 1 = 10)) ∧
    (((none : Option Nat) = some 10 ∧ 1 ≤ 10 ∧ 10 ≤ 10) ∨ ((none : Option Nat) = none ∧ 10 = 10)) := by
  decide

end Sys2Proof.Tests
end

/-!
SUPPORT and PROOFS of the family of the state: what ACCEPT makes of a word, whether a BYTE step goes on or completes,
the host's moves, the frame of the commands, the rules about every step, the invariant, and the two-run statement.
-/
namespace Sys2Proof.Machine

/-! ### What ACCEPT makes of a word, and what a BYTE step keeps -/

theorem legalBudget_iff (b : BitVec 4) : legalBudget b = true ↔ 1 ≤ b.toNat ∧ b.toNat ≤ 10 := by
  simp [legalBudget]

/-- A legal word has a legal budget (R64). -/
theorem budget_range_of_legalWord {cmd : CmdWord} (h : legalWord cmd = true) :
    1 ≤ (fieldBudget cmd).toNat ∧ (fieldBudget cmd).toNat ≤ 10 := by
  unfold legalWord at h
  exact (legalBudget_iff _).mp (Bool.and_eq_true_iff.mp h).2

/-- A word the decoder rejects is illegal (R63, R64). -/
theorem legalWord_of_decode_error {cmd : CmdWord} {e : DecodeError} (h : decode cmd = .error e) :
    legalWord cmd = false := by
  cases e
  unfold legalWord
  rw [decide_eq_false ((decode_error_iff cmd).mp h), Bool.false_and]

/-- ACCEPT of a legal word starts the command of its fields (R61, R62, R92). -/
theorem Decoder.acceptWord_legal {cmd : CmdWord} (d : Decoder) (a : Nat) (h : legalWord cmd = true) :
    d.acceptWord cmd a = d.start (fieldW cmd) (fieldBudget cmd) a := by
  unfold Decoder.acceptWord
  split
  · rename_i i hd
    obtain ⟨hw, hb⟩ := decode_fields hd
    rw [legalWord_of_decode hd, ← legalBudget_eq_wellFormed] at h
    rw [Decoder.accept_legal h, hw, hb]
  · rename_i e hd
    rw [legalWord_of_decode_error hd] at h
    cases h

/-- ACCEPT of an illegal word refuses it (R64, R92). -/
theorem Decoder.acceptWord_illegal {cmd : CmdWord} (d : Decoder) (a : Nat) (h : legalWord cmd = false) :
    d.acceptWord cmd a = d.refuse := by
  unfold Decoder.acceptWord
  split
  · rename_i i hd
    rw [legalWord_of_decode hd, ← legalBudget_eq_wellFormed] at h
    exact Decoder.accept_illegal h
  · rfl

/-- A BYTE step completes, or the host sees nothing of it (R31, R93). -/
theorem Decoder.consume_idle_or_sameView (d : Decoder) (w : Nat) (byte : Byte) :
    (d.consume w byte).phase = .idle ∨ Decoder.SameView (d.consume w byte) d := by
  rcases d.consume_cases w byte with ⟨_, h⟩ | ⟨_, _, h⟩ | ⟨_, _, _, h⟩ | ⟨_, _, _, h⟩ <;> rw [h]
  · exact .inl rfl
  · exact .inl rfl
  · exact .inl rfl
  · exact .inr ⟨rfl, rfl, rfl, rfl, rfl⟩

/-! ### The host's moves -/

theorem step_read {s : State} {r : HostReg} {rest : List HostMove} (h : s.host = .read r :: rest) :
    step s = hostRead r (s.setHost rest) := by
  simp [step, turn, h]

theorem step_read_ok {s : State} {r : HostReg} {rest : List HostMove} {v : Reading} (h : s.host = .read r :: rest)
    (hv : s.dec.readReg r = .ok v) : step s = .next { s with host := rest, lastRead := some v } := by
  rw [step_read h]
  unfold hostRead
  rw [State.setHost_dec, hv]
  rfl

theorem step_read_error {s : State} {r : HostReg} {rest : List HostMove} {f : Fault} (h : s.host = .read r :: rest)
    (hf : s.dec.readReg r = .error f) : step s = .fault f := by
  rw [step_read h]
  unfold hostRead
  rw [State.setHost_dec, hf]

theorem step_offer {s : State} {cmd : CmdWord} {op : AddrOperand} {rest : List HostMove}
    (h : s.host = .offer cmd op :: rest) (hv : s.cmdValid = false) :
    step s = offerCommand cmd op (s.setHost rest) := by
  simp [step, turn, h, hv]

theorem step_offer_ok {s : State} {cmd : CmdWord} {op : AddrOperand} {rest : List HostMove} {a : Nat}
    (h : s.host = .offer cmd op :: rest) (hv : s.cmdValid = false) (hop : operandAddr s.dec op = .ok a)
    (ha : a < 2 ^ s.addrW) :
    step s = .next { s with host := rest, cmdValid := true, cmd := cmd, cmdAddr := a } := by
  rw [step_offer h hv]
  unfold offerCommand
  rw [State.setHost_dec, hop]
  simp [isAddr, ha, State.setOffer, State.setHost]

theorem step_offer_error {s : State} {cmd : CmdWord} {op : AddrOperand} {rest : List HostMove} {f : Fault}
    (h : s.host = .offer cmd op :: rest) (hv : s.cmdValid = false) (hop : operandAddr s.dec op = .error f) :
    step s = .fault f := by
  rw [step_offer h hv]
  unfold offerCommand
  rw [State.setHost_dec, hop]

/-- Settles O17: the READ of a register that holds `⊥` is an error of `readReg`, and the step is that error. -/
theorem readOfNoValueFaults : Obligations.ReadOfNoValueFaults := by
  intro s rest
  refine ⟨fun h hn => step_read_error h ?_, fun h hn => step_read_error h ?_, fun h hn => step_read_error h ?_⟩ <;>
    simp [Decoder.readReg, hn]

/-- Settles O18: one READ rule (`step_read_ok`), at each of the five registers. -/
theorem readReturnsTheRegister : Obligations.ReadReturnsTheRegister := by
  intro s rest
  refine ⟨fun h => step_read_ok h ?_, fun h => step_read_ok h rfl, fun v h hv => step_read_ok h ?_,
    fun v h hv => step_read_ok h ?_, fun v h hv => step_read_ok h ?_⟩
  · cases hp : s.dec.phase <;> simp [Decoder.readReg, cmdReady, hp]
  all_goals simp [Decoder.readReg, hv]

/-- Settles O20: the operand's address decides whether the offer reaches the port. -/
theorem offerPutsTheCommandOnThePort : Obligations.OfferPutsTheCommandOnThePort := by
  intro s cmd rest hv
  refine ⟨fun a h ha => step_offer_ok h hv rfl ha, fun a h hn ha => step_offer_ok h hv ?_ ha,
    fun h hn => step_offer_error h hv ?_⟩ <;> simp [operandAddr, hn]

/-- Settles O23, by the definition of the reset state. -/
theorem resetRegisterValues : Obligations.ResetRegisterValues :=
  ⟨rfl, rfl, rfl, rfl, rfl⟩

/-! ### The frame of the commands, and the rules about every step -/

/-- Settles O15: ACCEPT writes the registers and takes the offer, BYTE writes the registers alone. -/
theorem commandsFrame : Obligations.CommandsFrame := by
  intro i s t h
  rcases exec_next h with ⟨hp, rfl⟩ | ⟨hp, byte, -, rfl⟩
  · refine ⟨rfl, rfl, rfl, rfl, rfl, rfl, fun _ => rfl, fun hb => ?_, fun _ hw => ?_⟩
    · rw [hp] at hb
      cases hb
    · simp [Decoder.accept_illegal (legalBudget_eq_wellFormed i ▸ hw), hp]
  · refine ⟨rfl, rfl, rfl, rfl, rfl, rfl, fun _ => rfl, fun _ => ?_, fun hi => ?_⟩
    · obtain ⟨hn, hb, ha⟩ := s.dec.consume_latch s.addrW byte
      refine ⟨rfl, hn, hb, ha, fun hbusy => ?_⟩
      rcases s.dec.consume_idle_or_sameView s.addrW byte with hidle | ⟨_, hview⟩
      · rw [State.setDec_dec, hidle] at hbusy
        cases hbusy
      · exact hview
    · rw [hp] at hi
      cases hi

/-- Settles O25: of what a step can do to the registers, only RESET, ACCEPT and a completing BYTE touch the results. -/
theorem resultsChangeOnlyWhereAllowed : Obligations.ResultsChangeOnlyWhereAllowed := by
  intro s t h hne
  rcases step_dec h with hd | ⟨hr, -⟩ | ⟨hr, hp, hv, hv', -⟩ | ⟨hr, hp, byte, -, hd⟩
  · simp [hd] at hne
  · exact .inl hr
  · exact .inr (.inl ⟨hr, hp, hv, hv'⟩)
  · rw [hd] at hne ⊢
    rcases s.dec.consume_idle_or_sameView s.addrW byte with hidle | ⟨-, h1, h2, h3, h4⟩
    · exact .inr (.inr ⟨hr, hp, hidle⟩)
    · simp [h1, h2, h3, h4] at hne

/-- Settles O26: a BYTE step and a refusal keep the latch, so a change is RESET or the ACCEPT of a legal word. -/
theorem latchChangesOnlyAtAccept : Obligations.LatchChangesOnlyAtAccept := by
  intro s t h hne
  rcases step_dec h with hd | ⟨hr, -⟩ | ⟨hr, hp, hv, -, hd⟩ | ⟨-, -, byte, -, hd⟩
  · simp [hd] at hne
  · exact .inl hr
  · cases hl : legalWord s.cmd with
    | false => simp [hd, Decoder.acceptWord_illegal _ _ hl] at hne
    | true =>
      rw [hd, Decoder.acceptWord_legal _ _ hl]
      exact .inr ⟨hr, hp, hv, rfl, rfl, rfl, rfl⟩
  · obtain ⟨hn, hb, ha⟩ := s.dec.consume_latch s.addrW byte
    simp [hd, hn, hb, ha] at hne

/-- Settles O27: from IDLE only ACCEPT can change the phase, and a refusal leaves it. -/
theorem busyOnlyByLegalAccept : Obligations.BusyOnlyByLegalAccept := by
  intro s t h hi hb
  rcases step_dec h with hd | ⟨-, hd⟩ | ⟨hr, -, hv, hv', hd⟩ | ⟨-, hp, -⟩
  · simp [hd, hi] at hb
  · simp [hd] at hb
  · cases hl : legalWord s.cmd with
    | false => simp [hd, Decoder.acceptWord_illegal _ _ hl, hi] at hb
    | true =>
      rw [hd, Decoder.acceptWord_legal _ _ hl]
      exact ⟨hr, hv, rfl, hv', rfl, rfl, rfl⟩
  · rw [hi] at hp
    cases hp

/-! ### The invariant -/

/-- The registers at power-on meet their invariant. -/
theorem Decoder.initial_inv (w : Nat) : Decoder.Inv w Decoder.initial := by
  constructor <;> simp [Decoder.initial]

/-- Settles O30: the stream is empty, the port's address is 0, and the registers are the initial ones. -/
theorem resetMeetsTheInvariant : Obligations.ResetMeetsTheInvariant where
  addrWPos := Nat.le_add_left 1 _
  memWf := Memory.reset_wf
  memFits := by simp [State.reset]
  portFits := Nat.two_pow_pos _
  resetHeld := fun _ => ⟨rfl, rfl⟩
  decInv := Decoder.initial_inv _

/-- A value of width N in a 64-bit register stays below 2^N (R25, R28). -/
theorem setWidth64_toNat_lt {n : Width} (x : BitVec (widthBits n)) : (x.setWidth 64).toNat < 2 ^ widthBits n := by
  rw [BitVec.toNat_setWidth]
  exact (Nat.mod_le _ _).trans_lt x.isLt

theorem setWidth64_toNat_lt_word32 {n : Width} (x : BitVec (widthBits n)) (h : n = .w32) :
    (x.setWidth 64).toNat < 2 ^ 32 := by
  subst h
  exact setWidth64_toNat_lt x

/-- `IDX` counts up without wrapping while it is below the cap (R26, R46). -/
theorem idx_succ_toNat {i : BitVec 4} (h : i.toNat < 10) : (i + 1).toNat = i.toNat + 1 := by
  have h1 : (1 : BitVec 4).toNat = 1 := rfl
  rw [BitVec.toNat_add, h1]
  omega

/-- The stage of a BYTE step raises the bound on the partial value by seven bits (R104, R107). -/
theorem Decoder.stage_toNat_lt {d : Decoder} (byte : Byte) (h : d.acc.toNat < 2 ^ (7 * d.idx.toNat)) :
    ((d.stage byte).setWidth 64).toNat < 2 ^ (7 * (d.idx.toNat + 1)) := by
  have hacc : (d.acc.setWidth (widthBits d.latN)).toNat < 2 ^ (7 * d.idx.toNat) := by
    rw [BitVec.toNat_setWidth]
    exact (Nat.mod_le _ _).trans_lt h
  rw [BitVec.toNat_setWidth]
  exact (Nat.mod_le _ _).trans_lt (accStep_toNat_lt byte hacc)

theorem Decoder.complete_ok_inv {w : Nat} {d : Decoder} {v : BitVec 64} {l : BitVec 4} {n : Nat}
    (hbase : d.latBase < 2 ^ w) (hv : d.latN = .w32 → v.toNat < 2 ^ 32)
    (hl : 1 ≤ l.toNat ∧ l.toNat ≤ 10 ∧ l.toNat ≤ d.latBudget.toNat) (hn : n = (d.latBase + l.toNat) % 2 ^ w) :
    Decoder.Inv w (d.complete .ok (some v) (some l) (some n)) := by
  constructor <;> simp [hbase, hl]
  · exact hn
  · exact hv

theorem Decoder.complete_overflow_inv {w : Nat} {d : Decoder} (hbase : d.latBase < 2 ^ w) :
    Decoder.Inv w (d.complete .overflow none none none) := by
  constructor <;> simp [hbase]

theorem Decoder.complete_budgetExceeded_inv {w : Nat} {d : Decoder} {v : BitVec 64}
    (hbase : d.latBase < 2 ^ w) (hv : d.latN = .w32 → v.toNat < 2 ^ 32) :
    Decoder.Inv w (d.complete .budgetExceeded (some v) none none) := by
  constructor <;> simp [hbase]
  exact hv

/-- Going on to the next byte keeps the registers' invariant while the budget is not used up. -/
theorem Decoder.goOn_inv {w : Nat} {d : Decoder} (byte : Byte) (hp : d.phase = .busy) (h : Decoder.Inv w d)
    (hb : d.idx.toNat + 1 ≠ d.latBudget.toNat) :
    Decoder.Inv w { d with acc := (d.stage byte).setWidth 64, idx := d.idx + 1 } := by
  have hlt := h.idxBelowBudget hp
  have hidx : (d.idx + 1).toNat = d.idx.toNat + 1 := idx_succ_toNat (by have := (h.budgetLegal hp).2; omega)
  exact { h with
    idxBelowBudget := fun _ => by
      show (d.idx + 1).toNat < d.latBudget.toNat
      omega
    accIsWord32 := fun _ => setWidth64_toNat_lt_word32 _
    accBelowIndex := fun _ => by
      show _ < 2 ^ (7 * (d.idx + 1).toNat)
      rw [hidx]
      exact Decoder.stage_toNat_lt byte (h.accBelowIndex hp) }

/-- Every BYTE step keeps the registers' invariant. -/
theorem Decoder.consume_inv {w : Nat} {d : Decoder} (byte : Byte) (hp : d.phase = .busy) (h : Decoder.Inv w d) :
    Decoder.Inv w (d.consume w byte) := by
  rcases d.consume_cases w byte with ⟨_, e⟩ | ⟨_, _, e⟩ | ⟨_, _, _, e⟩ | ⟨_, _, hb, e⟩ <;> rw [e]
  · have hlt := h.idxBelowBudget hp
    have hle := (h.budgetLegal hp).2
    have hlen : (BitVec.ofNat 4 (d.idx.toNat + 1)).toNat = d.idx.toNat + 1 := by
      rw [BitVec.toNat_ofNat]
      omega
    refine Decoder.complete_ok_inv h.baseFits (setWidth64_toNat_lt_word32 _) ?_ ?_ <;> rw [hlen]
    · omega
    · rfl
  · exact Decoder.complete_overflow_inv h.baseFits
  · exact Decoder.complete_budgetExceeded_inv h.baseFits (setWidth64_toNat_lt_word32 _)
  · exact Decoder.goOn_inv byte hp h hb

/-- ACCEPT of any word at an address keeps the registers' invariant of an IDLE decoder. -/
theorem Decoder.acceptWord_inv {w a : Nat} {d : Decoder} (cmd : CmdWord) (hi : d.phase = .idle) (ha : a < 2 ^ w)
    (h : Decoder.Inv w d) : Decoder.Inv w (d.acceptWord cmd a) := by
  cases hl : legalWord cmd with
  | false =>
    rw [Decoder.acceptWord_illegal d a hl]
    exact Decoder.refuse_inv hi h
  | true =>
    rw [Decoder.acceptWord_legal d a hl]
    exact Decoder.start_inv d ha (budget_range_of_legalWord hl)

section
variable {s : State}

theorem State.Inv.setDec {d : Decoder} (h : State.Inv s) (hd : Decoder.Inv s.addrW d)
    (hr : s.rst = true → d.phase = .idle ∧ d.resStatus = .none) : State.Inv (s.setDec d) :=
  { h with resetHeld := hr, decInv := hd }

theorem State.Inv.takeOffer (h : State.Inv s) : State.Inv s.takeOffer :=
  { h with }

theorem State.Inv.setHost (rest : List HostMove) (h : State.Inv s) : State.Inv (s.setHost rest) :=
  { h with }

theorem State.Inv.setLastRead (v : Reading) (h : State.Inv s) : State.Inv (s.setLastRead v) :=
  { h with }

theorem State.Inv.setOffer {a : Nat} (cmd : CmdWord) (ha : a < 2 ^ s.addrW) (h : State.Inv s) :
    State.Inv (s.setOffer cmd a) :=
  { h with portFits := ha }

theorem State.Inv.releaseRst (h : State.Inv s) : State.Inv (s.setRst false) :=
  { h with resetHeld := nofun }

/-- Placing a byte at an address keeps the invariant. -/
theorem State.Inv.writeMem {a : Nat} (b : Byte) (ha : a < 2 ^ s.addrW) (h : State.Inv s) :
    State.Inv (s.setMem (Memory.write s.mem a b)) :=
  { h with
    memWf := Memory.write_wf a b h.memWf
    memFits := fun c hc => by
      rcases Memory.mem_write hc with rfl | hc
      · exact ha
      · exact h.memFits c hc }

theorem State.Inv.resetBlock (h : State.Inv s) : State.Inv (resetBlock s) :=
  h.setDec (Decoder.reset_inv _ _) fun _ => ⟨rfl, rfl⟩

/-- A reset block may be held in reset. -/
theorem State.Inv.assertRst (h : State.Inv s) : State.Inv ((Machine.resetBlock s).setRst true) :=
  { h.resetBlock with resetHeld := fun _ => ⟨rfl, rfl⟩ }

end

theorem BlockHasTurn.inv {s s' : State} (h : BlockHasTurn s s') (hs : State.Inv s) : State.Inv s' := by
  rcases h with rfl | ⟨rest, -, rfl⟩
  · exact hs
  · exact hs.setHost rest

/-- The block's turn keeps the invariant. -/
theorem blockTurn_keeps_inv {s t : State} (hs : State.Inv s) (h : blockTurn s = .next t) : State.Inv t := by
  rcases blockTurn_next h with ⟨-, rfl⟩ | ⟨hr, hi, -, rfl⟩ | ⟨hr, hp, byte, -, rfl⟩ | ⟨-, -, -, rfl⟩
  · exact hs.resetBlock
  · exact (hs.setDec (Decoder.acceptWord_inv _ hi hs.portFits hs.decInv) (by simp [hr])).takeOffer
  · exact hs.setDec (Decoder.consume_inv byte hp hs.decInv) (by simp [hr])
  · exact hs

/-- Settles O31: the block's turn and each move of the host keep the invariant. -/
theorem stepKeepsTheInvariant : Obligations.StepKeepsTheInvariant := by
  intro s t hs h
  rcases step_next h with ⟨s', hb, ht⟩ | ⟨rest, -, rfl⟩ | ⟨cmd, _, rest, -, -, a, -, ha, rfl⟩ |
    ⟨_, rest, v, -, -, rfl⟩ | ⟨a, b, rest, -, ha, -, rfl⟩ | ⟨rest, -, rfl⟩ | ⟨rest, -, rfl⟩
  · exact blockTurn_keeps_inv (hb.inv hs) ht
  · exact hs.setHost rest
  · exact (hs.setHost rest).setOffer cmd ha
  · exact (hs.setHost rest).setLastRead v
  · exact (hs.setHost rest).writeMem b ha
  · exact (hs.setHost rest).assertRst
  · exact (hs.setHost rest).releaseRst

/-! ### Two runs of one command -/

/-- The scan from index `i` on reads the byte at `i` (R85). -/
theorem lt_scanReads_scanFrom {b : Nat} (byte : Nat → Byte) {fuel i : Nat} (hi : i + fuel = 10) (h10 : i < 10)
    (hb : i < b) : i < scanReads b (scanFrom b byte fuel) := by
  induction fuel generalizing i with
  | zero => omega
  | succ fuel ih =>
    have hidx : maxBytes - (fuel + 1) = i := by
      unfold maxBytes
      omega
    unfold scanFrom
    dsimp only
    rw [hidx]
    split
    · exact Nat.lt_succ_self i
    · split
      · exact h10
      · split
        · exact hb
        · exact Nat.lt_of_succ_lt (ih (by omega) (by omega) (by omega))

/-- Where the byte at index `i` ends nothing, the scan goes on at `i + 1` (R85). -/
theorem scanFrom_goesOn {b : Nat} {byte : Nat → Byte} {fuel i : Nat} (hi : i + (fuel + 1) = 10)
    (hc : cont (byte i) = true) (h9 : i ≠ 9) (hb : i + 1 ≠ b) :
    scanFrom b byte (fuel + 1) = scanFrom b byte fuel := by
  have hidx : maxBytes - (fuel + 1) = i := by
    unfold maxBytes
    omega
  rw [scanFrom]
  simp [hidx, hc, h9, hb]

/-- The block has every turn, is not in reset, and nothing is offered to it. -/
structure State.Undisturbed (s : State) : Prop where
  noMoves : s.host = []
  notInReset : s.rst = false
  noOffer : s.cmdValid = false

namespace State.Undisturbed
variable {s : State} (h : s.Undisturbed)
include h

theorem setDec (d : Decoder) : (s.setDec d).Undisturbed := ⟨h.noMoves, h.notInReset, h.noOffer⟩

theorem step_idle (hp : s.dec.phase = .idle) : step s = .next s := by
  rw [step_eq_blockTurn h.noMoves, blockTurn_idle h.notInReset hp h.noOffer]

theorem step_readable {byte : Byte} (hp : s.dec.phase = .busy)
    (hb : s.streamByte s.dec.latBase s.dec.idx.toNat = some byte) :
    step s = .next (s.setDec (s.dec.consume s.addrW byte)) := by
  rw [step_eq_blockTurn h.noMoves, blockTurn_busy h.notInReset hp, exec_busy_readable hp hb]

theorem step_stuck (hp : s.dec.phase = .busy) (hb : s.streamByte s.dec.latBase s.dec.idx.toNat = none) :
    step s = .fault (.stuckUnreadable (s.dec.rdAddr s.addrW)) := by
  rw [step_eq_blockTurn h.noMoves, blockTurn_busy h.notInReset hp, exec_busy_stuck hp hb]

end State.Undisturbed

/-- The same registers with another count of free values drawn: what two decoders that run one command differ in. -/
def Decoder.withDraws (d : Decoder) (k : Nat) : Decoder := { d with draws := k }

theorem Decoder.start_withDraws (d e : Decoder) (n : Width) (b : BitVec 4) (a : Nat) :
    e.start n b a = (d.start n b a).withDraws e.draws := rfl

/-- A BYTE step does not look at the count of draws: both decoders complete with the same results, or both go on. -/
theorem Decoder.consume_withDraws (d : Decoder) (w : Nat) (byte : Byte) (k : Nat) :
    ((d.consume w byte).phase = .idle ∧ Decoder.SameView (d.consume w byte) ((d.withDraws k).consume w byte)) ∨
    (cont byte = true ∧ d.idx.toNat ≠ 9 ∧ d.idx.toNat + 1 ≠ d.latBudget.toNat ∧
      d.consume w byte = { d with acc := (d.stage byte).setWidth 64, idx := d.idx + 1 } ∧
      (d.withDraws k).consume w byte = (d.consume w byte).withDraws k) := by
  unfold Decoder.consume Decoder.withDraws
  dsimp only
  split
  · exact .inl ⟨rfl, rfl, rfl, rfl, rfl, rfl⟩
  · split
    · exact .inl ⟨rfl, rfl, rfl, rfl, rfl, rfl⟩
    · split
      · exact .inl ⟨rfl, rfl, rfl, rfl, rfl, rfl⟩
      · exact .inr ⟨by simpa using ‹¬cont byte = false›, ‹_›, ‹_›, rfl, rfl⟩

/-- Two machines run one command at the same index, and their streams agree on every byte its scan reads. -/
structure State.SameCommandRuns (s s' : State) : Prop where
  sameRegisters : ∃ k, s'.dec = s.dec.withDraws k
  sameAddrW : s'.addrW = s.addrW
  idxBelowBudget : s.dec.idx.toNat < s.dec.latBudget.toNat
  scanAtIdx : ∃ fuel, s.dec.idx.toNat + (fuel + 1) = 10 ∧
    scan s.dec.latBudget.toNat (s.stream s.dec.latBase) =
      scanFrom s.dec.latBudget.toNat (s.stream s.dec.latBase) (fuel + 1)
  sameBytes : ∀ j, j < scanReads s.dec.latBudget.toNat (scan s.dec.latBudget.toNat (s.stream s.dec.latBase)) →
    s'.streamByte s.dec.latBase j = s.streamByte s.dec.latBase j

/-- The relation of the two runs: both undisturbed, showing the host the same, and running one command if any. -/
structure State.Twin (s s' : State) : Prop where
  left : s.Undisturbed
  right : s'.Undisturbed
  sameView : Decoder.SameView s.dec s'.dec
  sameCommand : s.dec.phase = .busy → State.SameCommandRuns s s'

/-- Two machines that run one command read the same byte (R45). -/
theorem State.SameCommandRuns.sameByte {s s' : State} (h : State.SameCommandRuns s s') :
    s'.streamByte s'.dec.latBase s'.dec.idx.toNat = s.streamByte s.dec.latBase s.dec.idx.toNat := by
  obtain ⟨k, hd⟩ := h.sameRegisters
  obtain ⟨fuel, hfuel, hscan⟩ := h.scanAtIdx
  have hread := lt_scanReads_scanFrom (s.stream s.dec.latBase) hfuel (by omega) h.idxBelowBudget
  rw [hd]
  exact h.sameBytes _ (hscan ▸ hread)

/-- After a BYTE step over the same byte the two machines are twins again. -/
theorem State.Twin.consume {s s' : State} {byte : Byte} (h : State.Twin s s') (hp : s.dec.phase = .busy)
    (hb : s.streamByte s.dec.latBase s.dec.idx.toNat = some byte) :
    State.Twin (s.setDec (s.dec.consume s.addrW byte)) (s'.setDec (s'.dec.consume s'.addrW byte)) := by
  have hc := h.sameCommand hp
  obtain ⟨k, hd⟩ := hc.sameRegisters
  rw [hd, hc.sameAddrW]
  rcases s.dec.consume_withDraws s.addrW byte k with ⟨hidle, hview⟩ | ⟨hcont, h9, hbud, hgo, hgo'⟩
  · exact ⟨h.left.setDec _, h.right.setDec _, hview, fun hbusy => by simp [hidle] at hbusy⟩
  · obtain ⟨fuel, hfuel, hscan⟩ := hc.scanAtIdx
    have hidx : (s.dec.idx + 1).toNat = s.dec.idx.toNat + 1 := idx_succ_toNat (by omega)
    have hstream : s.stream s.dec.latBase s.dec.idx.toNat = byte := by
      simp [State.stream, hb]
    have hlt := hc.idxBelowBudget
    rw [hgo', hgo]
    refine ⟨h.left.setDec _, h.right.setDec _, ⟨rfl, rfl, rfl, rfl, rfl⟩, fun _ => ⟨⟨k, rfl⟩, hc.sameAddrW, ?_, ?_,
      hc.sameBytes⟩⟩
    · show (s.dec.idx + 1).toNat < s.dec.latBudget.toNat
      omega
    · cases fuel with
      | zero => omega
      | succ fuel =>
        refine ⟨fuel, ?_, hscan.trans (scanFrom_goesOn hfuel (hstream ▸ hcont) h9 hbud)⟩
        show (s.dec.idx + 1).toNat + (fuel + 1) = 10
        omega

/-- What two runs that agree answer: two next states in the relation `R`, or the same fault. -/
def SameAnswer (R : State → State → Prop) (o o' : Host.Outcome State Fault Refusal) : Prop :=
  (∃ t t', o = .next t ∧ o' = .next t' ∧ R t t') ∨ ∃ f, o = .fault f ∧ o' = .fault f

/-- Twins that answer alike show the host the same, and fault alike. -/
theorem SameAnswer.sameView {o o' : Host.Outcome State Fault Refusal} (h : SameAnswer State.Twin o o') :
    (∀ t, o = .next t → ∃ t', o' = .next t' ∧ Decoder.SameView t.dec t'.dec) ∧
      (∀ f, o = .fault f → o' = .fault f) := by
  rcases h with ⟨t, t', rfl, rfl, htwin⟩ | ⟨f, rfl, rfl⟩
  · refine ⟨fun u hu => ⟨t', rfl, ?_⟩, fun _ => nofun⟩
    cases hu
    exact htwin.sameView
  · exact ⟨fun _ => nofun, fun _ hg => hg⟩

/-- One step of two twins: both stay, both are stuck at the same byte, or both consume the same byte. -/
theorem State.Twin.step {s s' : State} (h : State.Twin s s') : SameAnswer State.Twin (step s) (step s') := by
  have hphase : s'.dec.phase = s.dec.phase := h.sameView.1.symm
  cases hp : s.dec.phase with
  | idle => exact .inl ⟨s, s', h.left.step_idle hp, h.right.step_idle (hphase.trans hp), h⟩
  | busy =>
    have hc := h.sameCommand hp
    obtain ⟨k, hd⟩ := hc.sameRegisters
    cases hb : s.streamByte s.dec.latBase s.dec.idx.toNat with
    | none =>
      refine .inr ⟨_, h.left.step_stuck hp hb, ?_⟩
      rw [h.right.step_stuck (hphase.trans hp) (hc.sameByte.trans hb), hd, hc.sameAddrW]
      rfl
    | some byte =>
      exact .inl ⟨_, _, h.left.step_readable hp hb,
        h.right.step_readable (hphase.trans hp) (hc.sameByte.trans hb), h.consume hp hb⟩

/-- A step that answers alike leads to runs that answer alike. -/
theorem sameAnswer_runSteps {R Q : State → State → Prop} {k : Nat}
    (hR : ∀ t t', R t t' → SameAnswer Q (runSteps k t) (runSteps k t')) {s s' : State}
    (h : SameAnswer R (step s) (step s')) : SameAnswer Q (runSteps (k + 1) s) (runSteps (k + 1) s') := by
  unfold runSteps
  rcases h with ⟨t, t', ht, ht', hr⟩ | ⟨f, hf, hf'⟩
  · rw [ht, ht']
    exact hR t t' hr
  · rw [hf, hf']
    exact .inr ⟨f, rfl, rfl⟩

theorem State.Twin.runSteps {s s' : State} (h : State.Twin s s') (k : Nat) :
    SameAnswer State.Twin (runSteps k s) (runSteps k s') := by
  induction k generalizing s s' with
  | zero => exact .inl ⟨s, s', rfl, rfl, h⟩
  | succ k ih => exact sameAnswer_runSteps (fun _ _ ht => ih ht) h.step

/-- The step that accepts: the block has the turn, is IDLE and not in reset, and a word is offered (R92). -/
theorem step_accept {s : State} (hh : s.host = []) (hr : s.rst = false) (hp : s.dec.phase = .idle)
    (hv : s.cmdValid = true) : step s = .next ((s.setDec (s.dec.acceptWord s.cmd s.cmdAddr)).takeOffer) := by
  rw [step_eq_blockTurn hh, blockTurn_offered hr hp hv]

theorem State.undisturbed_takeOffer {s : State} (hh : s.host = []) (hr : s.rst = false) : s.takeOffer.Undisturbed :=
  ⟨hh, hr, rfl⟩

/-- Two decoders, whatever their pasts, that start the same legal command over streams that agree where its scan
reads run one command. -/
theorem State.sameCommandRuns_start {s s' : State} {cmd : CmdWord} {a : Nat} (hl : legalWord cmd = true)
    (hw : s'.addrW = s.addrW)
    (hbytes : ∀ j, j < scanReads (fieldBudget cmd).toNat (scan (fieldBudget cmd).toNat (s.stream a)) →
      s'.streamByte a j = s.streamByte a j) :
    State.SameCommandRuns ((s.setDec (s.dec.start (fieldW cmd) (fieldBudget cmd) a)).takeOffer)
      ((s'.setDec (s'.dec.start (fieldW cmd) (fieldBudget cmd) a)).takeOffer) where
  sameRegisters := ⟨s'.dec.draws, Decoder.start_withDraws _ _ _ _ _⟩
  sameAddrW := hw
  idxBelowBudget := (budget_range_of_legalWord hl).1
  scanAtIdx := ⟨9, rfl, rfl⟩
  sameBytes := hbytes

/-- Two decoders, whatever their pasts, that ACCEPT the same word at the same address are twins. -/
theorem State.twin_acceptWord {s s' : State} {cmd : CmdWord} {a : Nat} (hh : s.host = []) (hh' : s'.host = [])
    (hr : s.rst = false) (hr' : s'.rst = false) (hp : s.dec.phase = .idle) (hp' : s'.dec.phase = .idle)
    (hw : s'.addrW = s.addrW)
    (hbytes : legalWord cmd = true →
      ∀ j, j < scanReads (fieldBudget cmd).toNat (scan (fieldBudget cmd).toNat (s.stream a)) →
        s'.streamByte a j = s.streamByte a j) :
    State.Twin ((s.setDec (s.dec.acceptWord cmd a)).takeOffer) ((s'.setDec (s'.dec.acceptWord cmd a)).takeOffer) := by
  have hu : ∀ d, ((s.setDec d).takeOffer).Undisturbed := fun _ => State.undisturbed_takeOffer hh hr
  have hu' : ∀ d, ((s'.setDec d).takeOffer).Undisturbed := fun _ => State.undisturbed_takeOffer hh' hr'
  cases hl : legalWord cmd with
  | false =>
    rw [Decoder.acceptWord_illegal _ a hl, Decoder.acceptWord_illegal _ a hl]
    exact ⟨hu _, hu' _, ⟨hp.trans hp'.symm, rfl, rfl, rfl, rfl⟩, fun hb => by simp [hp] at hb⟩
  | true =>
    rw [Decoder.acceptWord_legal _ a hl, Decoder.acceptWord_legal _ a hl]
    exact ⟨hu _, hu' _, ⟨rfl, rfl, rfl, rfl, rfl⟩, fun _ => State.sameCommandRuns_start hl hw (hbytes hl)⟩

/-- Settles O48: the ACCEPT makes the two machines twins, and twins answer alike after every number of steps. -/
theorem noCarriedState : Obligations.NoCarriedState := by
  intro s s' hh hh' hr hr' hp hp' hv hv' hcmd haddr hw hbytes k
  have haccept : SameAnswer State.Twin (step s) (step s') := by
    refine .inl ⟨_, _, step_accept hh hr hp hv, step_accept hh' hr' hp' hv', ?_⟩
    rw [hcmd, haddr]
    exact State.twin_acceptWord hh hh' hr hr' hp hp' hw hbytes
  exact (sameAnswer_runSteps (fun _ _ ht => ht.runSteps k) haccept).sameView

end Sys2Proof.Machine

/-!
SUPPORT and PROOFS of the family of the stream: the host's write and the bytes it may not touch, who changes the
stream, and the completion of a command whose caller keeps its obligation.
-/
namespace Sys2Proof.Machine

/-! ### The host's write -/

/-- The bytes no agent may write are `ea(0) .. ea(9)` of a running command (R43, R49). -/
theorem Decoder.inWindow_iff (d : Decoder) (w a : Nat) :
    d.inWindow w a = true ↔ d.phase = .busy ∧ ∃ j, j ≤ 9 ∧ (d.latBase + j) % 2 ^ w = a := by
  simp only [Decoder.inWindow, maxBytes, Bool.and_eq_true, List.any_eq_true, List.mem_range, decide_eq_true_eq,
    Nat.lt_succ_iff]
  rfl

theorem step_place {s : State} {a : Nat} {b : Byte} {rest : List HostMove} (h : s.host = .place a b :: rest) :
    step s = placeByte a b (s.setHost rest) := by
  simp [step, turn, h]

theorem step_place_ok {s : State} {a : Nat} {b : Byte} {rest : List HostMove} (h : s.host = .place a b :: rest)
    (ha : a < 2 ^ s.addrW) (hw : s.dec.inWindow s.addrW a = false) :
    step s = .next { s with host := rest, mem := Memory.write s.mem a b } := by
  rw [step_place h]
  simp [placeByte, isAddr, ha, hw, State.setMem, State.setHost]

theorem step_place_inWindow {s : State} {a : Nat} {b : Byte} {rest : List HostMove}
    (h : s.host = .place a b :: rest) (ha : a < 2 ^ s.addrW) (hw : s.dec.inWindow s.addrW a = true) :
    step s = .fault (.writeDuringCommand a) := by
  rw [step_place h]
  simp [placeByte, isAddr, ha, hw]

/-- Settles O21: outside a running command's window the step writes the byte, and the laws of `Memory.write` say what
the stream then reads. -/
theorem placedByteIsSeen : Obligations.PlacedByteIsSeen := by
  intro s a b rest h ha hfree
  have hw : s.dec.inWindow s.addrW a = false := by
    rw [Bool.eq_false_iff, ne_eq, Decoder.inWindow_iff]
    rintro ⟨hp, j, hj, hea⟩
    exact hfree hp j hj hea
  exact ⟨Memory.write s.mem a b, step_place_ok h ha hw, Memory.read_write_same _ _ _,
    fun _ hne => Memory.read_write_other b hne, Memory.write_wf a b⟩

/-- Settles O22: `ea(j)` is an address, and it lies in the running command's window. -/
theorem writeDuringCommandHasNoMove : Obligations.WriteDuringCommandHasNoMove := by
  intro s b rest j hj hp h
  have ha : (s.dec.latBase + j) % 2 ^ s.addrW < 2 ^ s.addrW := Nat.mod_lt _ (Nat.two_pow_pos _)
  exact step_place_inWindow h ha ((Decoder.inWindow_iff _ _ _).mpr ⟨hp, j, hj, rfl⟩)

/-! ### Who changes the stream -/

/-- The block's turn leaves the stream and the address width as they are (R5, R40). -/
theorem blockTurn_stream {s t : State} (h : blockTurn s = .next t) : t.addrW = s.addrW ∧ t.mem = s.mem := by
  rcases blockTurn_next h with ⟨-, rfl⟩ | ⟨-, -, -, rfl⟩ | ⟨-, -, _, -, rfl⟩ | ⟨-, -, -, rfl⟩ <;>
    exact ⟨rfl, rfl⟩

/-- A step keeps the address width, and it keeps the stream too, except for the byte that the host's move places. -/
theorem step_stream {s t : State} (h : step s = .next t) :
    t.addrW = s.addrW ∧
    (t.mem = s.mem ∨ ∃ a b rest, s.host = .place a b :: rest ∧ t.mem = Memory.write s.mem a b) := by
  rcases step_next h with ⟨s', hb, ht⟩ | ⟨_, -, rfl⟩ | ⟨_, _, _, -, -, _, -, -, rfl⟩ |
    ⟨_, _, _, -, -, rfl⟩ | ⟨a, b, rest, hh, -, -, rfl⟩ | ⟨_, -, rfl⟩ | ⟨_, -, rfl⟩
  · obtain ⟨hw, -, -, -, -, -, hm⟩ := hb.same
    obtain ⟨hw', hm'⟩ := blockTurn_stream ht
    exact ⟨hw'.trans hw, .inl (hm'.trans hm)⟩
  · exact ⟨rfl, .inl rfl⟩
  · exact ⟨rfl, .inl rfl⟩
  · exact ⟨rfl, .inl rfl⟩
  · exact ⟨rfl, .inr ⟨a, b, rest, hh, rfl⟩⟩
  · exact ⟨rfl, .inl rfl⟩
  · exact ⟨rfl, .inl rfl⟩

/-- Settles O29: a stream that reads otherwise was written, and the write changes its own address alone. -/
theorem onlyTheHostWritesTheStream : Obligations.OnlyTheHostWritesTheStream := by
  intro s t h
  obtain ⟨hw, hm⟩ := step_stream h
  refine ⟨hw, fun a hne => ?_⟩
  rcases hm with hm | ⟨a', b, rest, hh, hm⟩ <;> rw [hm] at hne ⊢
  · exact absurd rfl hne
  · have ha : a = a' := by
      by_contra hother
      exact hne (Memory.read_write_other b hother)
    subst ha
    exact ⟨b, rest, hh, Memory.read_write_same _ _ _⟩

/-! ### Completion -/

theorem legalWord_encode : ∀ i : Instr, legalWord (encode i) = i.wellFormed
  | .decode32 b => Laws.EncodeLegal.decode32 b
  | .decode64 b => Laws.EncodeLegal.decode64 b

theorem fieldBudget_encode (i : Instr) : fieldBudget (encode i) = i.budget := by
  cases i with
  | decode32 b => revert b; decide
  | decode64 b => revert b; decide

/-- The decoder has completed with one of the statuses a legal command can end with (R96). -/
def Decoder.Completed (d : Decoder) : Prop :=
  d.phase = .idle ∧ (d.resStatus = .ok ∨ d.resStatus = .overflow ∨ d.resStatus = .budgetExceeded)

/-- A BYTE step completes the command, or its byte goes on and neither the cap nor the budget is reached (R93). -/
theorem Decoder.consume_completed_or_goesOn (d : Decoder) (w : Nat) (byte : Byte) :
    (d.consume w byte).Completed ∨
    (cont byte = true ∧ d.idx.toNat + 1 ≠ d.latBudget.toNat ∧
      d.consume w byte = { d with acc := (d.stage byte).setWidth 64, idx := d.idx + 1 }) := by
  rcases d.consume_cases w byte with ⟨-, h⟩ | ⟨-, -, h⟩ | ⟨-, -, -, h⟩ | ⟨hc, -, hb, h⟩
  · exact .inl (h ▸ ⟨rfl, .inl rfl⟩)
  · exact .inl (h ▸ ⟨rfl, .inr (.inl rfl)⟩)
  · exact .inl (h ▸ ⟨rfl, .inr (.inr rfl)⟩)
  · exact .inr ⟨hc, hb, h⟩

/-- A command with budget `b` over the bytes `byteAt` cannot go past index `t`, and it can read every byte up to
there. -/
structure EndsBy (byteAt : Nat → Option Byte) (b t : Nat) : Prop where
  withinBudget : t < b
  readable : ∀ j, j ≤ t → (byteAt j).isSome = true
  ends : cont ((byteAt t).getD 0) = false ∨ t + 1 = b

/-- Either form of the caller's obligation (R47) names an index by which the command ends. -/
theorem State.CallerDuty.endsBy {s : State} {base b : Nat} (h : s.CallerDuty base b) (hb : 1 ≤ b ∧ b ≤ 10) :
    ∃ t, EndsBy (s.streamByte base) b t := by
  obtain ⟨k, rfl⟩ : ∃ k, b = k + 1 := ⟨b - 1, by omega⟩
  rcases h with hall | ⟨t, -, hread, hterm⟩
  · exact ⟨k, k.lt_succ_self, fun j hj => hall j (by omega), .inr rfl⟩
  · by_cases ht : t < k + 1
    · exact ⟨t, ht, hread, .inl hterm⟩
    · exact ⟨k, k.lt_succ_self, fun j hj => hread j (by omega), .inr rfl⟩

/-- The block has every turn, and its running command reads at most `k` more bytes after the next one. -/
structure State.RunsFor (s : State) (k : Nat) : Prop where
  undisturbed : s.Undisturbed
  busy : s.dec.phase = .busy
  budgetLegal : s.dec.latBudget.toNat ≤ 10
  endsBy : EndsBy (s.streamByte s.dec.latBase) s.dec.latBudget.toNat (s.dec.idx.toNat + k)

/-- A BYTE step that does not complete the command leaves it one byte fewer to read. -/
theorem State.RunsFor.goOn {s : State} {k : Nat} (acc : BitVec 64) (h : s.RunsFor (k + 1)) :
    (s.setDec { s.dec with acc := acc, idx := s.dec.idx + 1 }).RunsFor k where
  undisturbed := h.undisturbed.setDec _
  busy := h.busy
  budgetLegal := h.budgetLegal
  endsBy := by
    have hlt := h.endsBy.withinBudget
    have hle := h.budgetLegal
    have hidx : (s.dec.idx + 1).toNat + k = s.dec.idx.toNat + (k + 1) := by
      rw [idx_succ_toNat (by omega)]
      omega
    show EndsBy (s.streamByte s.dec.latBase) s.dec.latBudget.toNat ((s.dec.idx + 1).toNat + k)
    rw [hidx]
    exact h.endsBy

/-- The step of a running command completes it, or leaves it one byte fewer to read. -/
theorem State.RunsFor.step {s : State} {k : Nat} (h : s.RunsFor k) :
    ∃ u, Machine.step s = .next u ∧ (u.dec.Completed ∨ ∃ k', k = k' + 1 ∧ u.RunsFor k') := by
  obtain ⟨byte, hbyte⟩ := Option.isSome_iff_exists.mp (h.endsBy.readable s.dec.idx.toNat (Nat.le_add_right _ _))
  refine ⟨_, h.undisturbed.step_readable h.busy hbyte, ?_⟩
  rcases s.dec.consume_completed_or_goesOn s.addrW byte with hdone | ⟨hcont, hbud, hgo⟩
  · exact .inl hdone
  · rw [hgo]
    cases k with
    | succ k => exact .inr ⟨k, rfl, h.goOn _⟩
    | zero =>
      rcases h.endsBy.ends with hterm | hlast
      · simp [hbyte, hcont] at hterm
      · exact absurd hlast hbud

theorem runSteps_of_step {s u : State} (h : step s = .next u) (k : Nat) : runSteps (k + 1) s = runSteps k u := by
  rw [runSteps, h]

/-- A running command completes within the bytes it has left to read. -/
theorem State.RunsFor.completes {s : State} {k : Nat} (h : s.RunsFor k) :
    ∃ m t, 1 ≤ m ∧ m ≤ k + 1 ∧ runSteps m s = .next t ∧ t.dec.Completed := by
  induction k generalizing s with
  | zero =>
    obtain ⟨u, hstep, hdone | ⟨_, hk, -⟩⟩ := h.step
    · exact ⟨1, u, le_rfl, le_rfl, runSteps_of_step hstep 0, hdone⟩
    · cases hk
  | succ k ih =>
    obtain ⟨u, hstep, hdone | ⟨_, hk, hrest⟩⟩ := h.step
    · exact ⟨1, u, le_rfl, by omega, runSteps_of_step hstep 0, hdone⟩
    · cases hk
      obtain ⟨m, t, -, hm, hrun, hdone⟩ := ih hrest
      exact ⟨m + 1, t, by omega, by omega, (runSteps_of_step hstep m).trans hrun, hdone⟩

/-- ACCEPT of a legal command starts it with its own budget at `CMD_ADDR` (R92). -/
theorem State.Offers.step_legal {s : State} {i : Instr} (h : s.Offers i) (hi : i.wellFormed = true) :
    step s = .next ((s.setDec (s.dec.start (fieldW s.cmd) i.budget s.cmdAddr)).takeOffer) := by
  have hl : legalWord s.cmd = true := by rw [h.word, legalWord_encode, hi]
  have hb : fieldBudget s.cmd = i.budget := by rw [h.word, fieldBudget_encode]
  rw [step_accept h.turnIsBlocks h.notInReset h.idle h.valid, Decoder.acceptWord_legal _ _ hl, hb]

/-- Settles O47: the caller's obligation names an index within the budget by which the command ends, and the started
command completes within the bytes up to there. -/
theorem everyCommandCompletes : Obligations.EveryCommandCompletes := by
  intro i s ho hi hduty
  have hb := (legalBudget_iff i.budget).mp hi
  obtain ⟨k, hends⟩ := hduty.endsBy hb
  have hruns : ((s.setDec (s.dec.start (fieldW s.cmd) i.budget s.cmdAddr)).takeOffer).RunsFor k :=
    { undisturbed := State.undisturbed_takeOffer ho.turnIsBlocks ho.notInReset
      busy := rfl
      budgetLegal := hb.2
      endsBy := (Nat.zero_add k).symm ▸ hends }
  obtain ⟨m, t, h1, hm, hrun, hidle, hstatus⟩ := hruns.completes
  have hlt := hends.withinBudget
  exact ⟨m, t, h1, by omega, (runSteps_of_step (ho.step_legal hi) m).trans hrun, hidle, hstatus⟩

end Sys2Proof.Machine

/-!
SUPPORT and PROOFS of the family of the encoding: a word as a number of its three fields, a command as its width and
budget, the two directions of decoding and encoding, the refusal of illegal words, the status codes, the assembler.
-/
namespace Sys2Proof.Machine

/-! ### A word and its fields, a command and its fields -/

/-- Bit 4 of a word is its field W (R60, R61). -/
theorem getLsbD_four_eq_fieldW (cmd : CmdWord) : cmd.getLsbD 4 = decide (fieldW cmd = .w64) := by
  unfold fieldW
  cases cmd.getLsbD 4 <;> rfl

/-- RSV, W and BUDGET stand at bits 7:5, 4 and 3:0, and between them they are the whole word (R60). -/
theorem toNat_eq_fields (cmd : CmdWord) :
    cmd.toNat = 32 * (fieldRsv cmd).toNat + (if fieldW cmd = .w64 then 16 else 0) + (fieldBudget cmd).toNat := by
  have hr : (fieldRsv cmd).toNat = cmd.toNat / 32 % 8 := by
    simp [fieldRsv, Nat.shiftRight_eq_div_pow]
  have hb : (fieldBudget cmd).toNat = cmd.toNat % 16 := by
    simp [fieldBudget]
  have hw : fieldW cmd = .w64 ↔ cmd.toNat / 16 % 2 = 1 := by
    rw [← decide_eq_true_iff (p := fieldW cmd = .w64), ← getLsbD_four_eq_fieldW]
    simp [BitVec.getLsbD, Nat.testBit_eq_decide_div_mod_eq]
  have := cmd.isLt
  simp only [hr, hb, hw]
  split <;> omega

/-- Words with the same three fields are the same word. -/
theorem word_eq_of_fields {c c' : CmdWord} (hr : fieldRsv c = fieldRsv c') (hw : fieldW c = fieldW c')
    (hb : fieldBudget c = fieldBudget c') : c = c' := by
  apply BitVec.eq_of_toNat_eq
  rw [toNat_eq_fields c, toNat_eq_fields c', hr, hw, hb]

/-- Commands of the same width with the same budget are the same command. -/
theorem instr_eq_of_fields : ∀ {i j : Instr}, i.width = j.width → i.budget = j.budget → i = j
  | .decode32 _, .decode32 _, _, hb => congrArg Instr.decode32 hb
  | .decode64 _, .decode64 _, _, hb => congrArg Instr.decode64 hb
  | .decode32 _, .decode64 _, hw, _ => nomatch hw
  | .decode64 _, .decode32 _, hw, _ => nomatch hw

/-- Legality (R64) in terms of the fields. -/
theorem legalWord_iff_fields (cmd : CmdWord) :
    legalWord cmd = true ↔ fieldRsv cmd = 0 ∧ 1 ≤ (fieldBudget cmd).toNat ∧ (fieldBudget cmd).toNat ≤ 10 := by
  unfold legalWord
  rw [Bool.and_eq_true, decide_eq_true_iff, legalBudget_iff]

/-! ### Decoding and encoding -/

theorem fieldRsv_encode (i : Instr) : fieldRsv (encode i) = 0 := by
  cases i with
  | decode32 b => revert b; decide
  | decode64 b => revert b; decide

theorem fieldW_encode (i : Instr) : fieldW (encode i) = i.width := by
  cases i with
  | decode32 b => revert b; decide
  | decode64 b => revert b; decide

/-- The word of a command as a number (R60, R66). -/
theorem toNat_encode (i : Instr) : (encode i).toNat = (if i.width = .w64 then 16 else 0) + i.budget.toNat := by
  rw [toNat_eq_fields, fieldRsv_encode, fieldW_encode, fieldBudget_encode]
  simp

/-- A word without a reserved bit decodes (R63, R66). -/
theorem exists_decode_of_fieldRsv {cmd : CmdWord} (h : fieldRsv cmd = 0) : ∃ i, decode cmd = .ok i := by
  cases hd : decode cmd with
  | ok i => exact ⟨i, rfl⟩
  | error e =>
    cases e
    exact absurd h ((decode_error_iff cmd).mp hd)

/-- A word that decodes has no reserved bit (R63, R67). -/
theorem fieldRsv_of_decode {cmd : CmdWord} {i : Instr} (h : decode cmd = .ok i) : fieldRsv cmd = 0 := by
  by_contra hne
  rw [(decode_error_iff cmd).mpr hne] at h
  cases h

/-- Decoding the word of a command gives the command back: the decoder reads its width and its budget. -/
theorem decode_encode (i : Instr) : decode (encode i) = .ok i := by
  obtain ⟨j, hj⟩ := exists_decode_of_fieldRsv (fieldRsv_encode i)
  obtain ⟨hw, hb⟩ := decode_fields hj
  rw [hj, instr_eq_of_fields (hw.trans (fieldW_encode i)) (hb.trans (fieldBudget_encode i))]

/-- A word that decodes is the word of its command: the two agree in every field. -/
theorem encode_of_decode {cmd : CmdWord} {i : Instr} (h : decode cmd = .ok i) : encode i = cmd := by
  obtain ⟨hw, hb⟩ := decode_fields h
  apply word_eq_of_fields
  · rw [fieldRsv_encode, fieldRsv_of_decode h]
  · rw [fieldW_encode, hw]
  · rw [fieldBudget_encode, hb]

/-- The legal words are the words of the well-formed commands (R64). -/
theorem legalWord_iff_encode (cmd : CmdWord) :
    legalWord cmd = true ↔ ∃ i : Instr, i.wellFormed = true ∧ encode i = cmd := by
  constructor
  · intro hl
    obtain ⟨i, hd⟩ := exists_decode_of_fieldRsv ((legalWord_iff_fields cmd).mp hl).1
    exact ⟨i, (legalWord_of_decode hd).symm.trans hl, encode_of_decode hd⟩
  · rintro ⟨i, hi, rfl⟩
    exact (legalWord_encode i).trans hi

/-- Settles O2: a command is its width and budget, a word is its three fields, and decoding and encoding carry the
one to the other. -/
theorem decodeAndEncodeAgree : Obligations.DecodeAndEncodeAgree := by
  refine ⟨fun i => ⟨decode_encode i, fieldRsv_encode i, ?_, fieldBudget_encode i⟩,
    fun _ _ => encode_of_decode, legalWord_iff_encode⟩
  rw [getLsbD_four_eq_fieldW, fieldW_encode]

/-! ### Illegal words -/

/-- Settles O10: the step is the ACCEPT of the offered word, and an illegal word is refused. -/
theorem illegalWordsGiveIllegalCmd : Obligations.IllegalWordsGiveIllegalCmd := by
  intro s hh hr hp hv hill
  have hl : legalWord s.cmd = false := Bool.eq_false_iff.mpr fun h => hill ((legalWord_iff_fields s.cmd).mp h)
  rw [step_accept hh hr hp hv, Decoder.acceptWord_illegal _ _ hl]
  rfl

/-! ### The assembler -/

/-- The budget of a line, the default standing for none (R74). -/
def AsmLine.budgetValue (l : AsmLine) : Nat := l.budget.getD defaultBudget

/-- A line whose budget is out of range is refused (R73). -/
theorem assemble_outOfRange {l : AsmLine} (h : ¬(1 ≤ l.budgetValue ∧ l.budgetValue ≤ 10)) : assemble l = none :=
  if_neg h

/-- A line whose budget is in range gives the word of the command with its width and budget, and its address (R73). -/
theorem assemble_inRange {l : AsmLine} (h : 1 ≤ l.budgetValue ∧ l.budgetValue ≤ 10) :
    ∃ i : Instr, assemble l = some (encode i, l.addr) ∧ i.width = l.width ∧ i.budget.toNat = l.budgetValue := by
  have hb : (BitVec.ofNat 4 l.budgetValue).toNat = l.budgetValue := by
    rw [BitVec.toNat_ofNat]
    omega
  obtain ⟨n, budget, addr⟩ := l
  cases n with
  | w32 => exact ⟨.decode32 _, if_pos h, rfl, hb⟩
  | w64 => exact ⟨.decode64 _, if_pos h, rfl, hb⟩

/-- Settles O50: a line in range assembles to the word of a well-formed command, whose number is its fields'. -/
theorem assemblerEmitsLegalWords : Obligations.AssemblerEmitsLegalWords := by
  intro n budget addr
  refine ⟨fun b hb hout => assemble_outOfRange (by simpa [AsmLine.budgetValue, hb] using hout), fun b hb => ?_⟩
  have hv : AsmLine.budgetValue ⟨n, budget, addr⟩ = b ∧ 1 ≤ b ∧ b ≤ 10 := by
    rcases hb with ⟨rfl, hr⟩ | ⟨rfl, rfl⟩
    · exact ⟨rfl, hr⟩
    · exact ⟨rfl, by decide⟩
  obtain ⟨hval, hrange⟩ := hv
  obtain ⟨i, hi, hiw, hib⟩ := assemble_inRange (hval ▸ hrange)
  refine ⟨encode i, hi, ?_, ?_⟩
  · rw [legalWord_encode, ← legalBudget_eq_wellFormed, legalBudget_iff, hib, hval]
    exact hrange
  · rw [toNat_encode, hiw, hib, hval]

/-! ### The opcode map, sample words and status codes -/

/-- A word decodes to the command of its row and to no other (R66). -/
theorem decode_eq_row_iff (cmd : CmdWord) :
    (decode cmd = .ok (.decode32 (fieldBudget cmd)) ↔ cmd &&& 0xF0 = 0x00) ∧
    (decode cmd = .ok (.decode64 (fieldBudget cmd)) ↔ cmd &&& 0xF0 = 0x10) := by
  unfold decode
  split
  · simp [‹cmd &&& 0xF0#8 = 0x00#8›]
  · split <;> simp_all

/-- The 20 legal words (R66): RSV is 0, so a legal word is `16 * W + BUDGET`. -/
theorem legalWord_iff_toNat (cmd : CmdWord) :
    legalWord cmd = true ↔
      (0x01 ≤ cmd.toNat ∧ cmd.toNat ≤ 0x0A) ∨ (0x11 ≤ cmd.toNat ∧ cmd.toNat ≤ 0x1A) := by
  have hn := toNat_eq_fields cmd
  have hb := (fieldBudget cmd).isLt
  have hz : fieldRsv cmd = 0 ↔ (fieldRsv cmd).toNat = 0 := by
    rw [← BitVec.toNat_inj]
    rfl
  rw [legalWord_iff_fields, hz]
  split at hn <;> omega

/-- Settles O1: the rows of the map one by one, and the legal words as numbers of their fields. -/
theorem opcodeMapAndLegalWords : Obligations.OpcodeMapAndLegalWords := fun cmd =>
  ⟨(decode_eq_row_iff cmd).1, (decode_eq_row_iff cmd).2, legalWord_iff_toNat cmd⟩

/-- Settles O3: six words are encodings of commands, three have a reserved bit, three encode an illegal budget. -/
theorem sampleWordsDecode : Obligations.SampleWordsDecode :=
  ⟨decode_encode (.decode32 1), decode_encode (.decode32 5), decode_encode (.decode32 10),
    decode_encode (.decode64 1), decode_encode (.decode64 4), decode_encode (.decode64 10),
    (decode_error_iff _).mpr (by decide), (decode_error_iff _).mpr (by decide), (decode_error_iff _).mpr (by decide),
    legalWord_encode (.decode64 0), legalWord_encode (.decode32 11), legalWord_encode (.decode64 15)⟩

/-- No status has the code 5, 6 or 7 (R72). -/
theorem Status.code_toNat_lt (st : Status) : st.code.toNat < 5 := by
  cases st <;> decide

/-- Settles O19, by the table of codes. -/
theorem statusCodes : Obligations.StatusCodes :=
  ⟨rfl, rfl, rfl, rfl, rfl, Status.code_toNat_lt⟩

end Sys2Proof.Machine

/-!
SUPPORT and PROOFS of the family of the base-128 decoder: ACCEPT and the BYTE step rule by rule, the arithmetic of a
result, the scan and its outcomes, `Decode` as a function of the scan, and the step machine's agreement with it.
-/
namespace Sys2Proof.Machine

/-! ### ACCEPT and the BYTE step -/

/-- Settles O8: ACCEPT starts a command with a legal budget and refuses any other. -/
theorem acceptFollowsItsRule : Obligations.AcceptFollowsItsRule := by
  intro i s hp
  refine ⟨fun hb => ⟨_, exec_idle hp, rfl, ?_⟩, fun hb => ⟨_, exec_idle hp, rfl, ?_⟩⟩
  · exact Decoder.accept_legal ((legalBudget_iff _).mpr hb)
  · exact Decoder.accept_illegal (Bool.eq_false_iff.mpr fun hl => hb ((legalBudget_iff _).mp hl))

section
variable (d : Decoder) (w : Nat) {byte : Byte}

theorem Decoder.consume_terminator (hc : cont byte = false) : d.consume w byte =
    d.complete .ok (some ((d.stage byte).setWidth 64)) (some (BitVec.ofNat 4 (d.idx.toNat + 1)))
      (some (wrapAddr w (d.latBase + d.idx.toNat + 1))) := by
  simp [Decoder.consume, Decoder.complete, hc]

theorem Decoder.consume_cap (hc : cont byte = true) (h9 : d.idx.toNat = 9) :
    d.consume w byte = d.complete .overflow none none none := by
  simp [Decoder.consume, Decoder.complete, hc, h9]

theorem Decoder.consume_budget (hc : cont byte = true) (h9 : d.idx.toNat ≠ 9)
    (hb : d.idx.toNat + 1 = d.latBudget.toNat) : d.consume w byte =
      d.complete .budgetExceeded
        (some ((d.stage byte ||| fill (widthBits d.latN) d.latBudget.toNat).setWidth 64)) none none := by
  simp [Decoder.consume, Decoder.complete, hc, h9, hb]

theorem Decoder.consume_goesOn (hc : cont byte = true) (h9 : d.idx.toNat ≠ 9)
    (hb : d.idx.toNat + 1 ≠ d.latBudget.toNat) :
    d.consume w byte = { d with acc := (d.stage byte).setWidth 64, idx := d.idx + 1 } := by
  simp [Decoder.consume, hc, h9, hb]

end

/-- Settles O11: the four ways a BYTE step can go are the rule's four cases. -/
theorem byteStepFollowsItsRule : Obligations.ByteStepFollowsItsRule := by
  intro i s byte hp hb
  obtain ⟨hn, hbud, hbase⟩ := s.dec.consume_latch s.addrW byte
  refine ⟨_, exec_busy_readable hp hb, hn, hbud, hbase, ?_⟩
  rw [show byte.getLsbD 7 = cont byte from rfl]
  rcases s.dec.consume_cases s.addrW byte with ⟨hc, h⟩ | ⟨hc, h9, h⟩ | ⟨hc, h9, hlast, h⟩ | ⟨hc, h9, hlast, h⟩ <;>
    rw [h]
  · rw [if_pos hc]
    exact ⟨rfl, rfl, rfl, rfl, rfl⟩
  · rw [if_neg (by simp [hc]), if_pos h9]
    exact ⟨rfl, rfl, rfl, rfl, rfl⟩
  · rw [if_neg (by simp [hc]), if_neg h9, if_pos hlast]
    exact ⟨rfl, rfl, rfl, rfl, rfl⟩
  · have hidx : s.dec.idx + 1 = BitVec.ofNat 4 (s.dec.idx.toNat + 1) := by
      apply BitVec.eq_of_toNat_eq
      simp
    rw [if_neg (by simp [hc]), if_neg h9, if_neg hlast, ← hidx]
    rfl

/-- Settles O28: only RESET and a completing BYTE step take a BUSY block to IDLE. -/
theorem busyEndsByCompletionOrReset : Obligations.BusyEndsByCompletionOrReset := by
  intro s t hstep hbusy hidle
  rcases step_dec hstep with hd | ⟨hreset, -⟩ | ⟨-, hp, -⟩ | ⟨-, -, byte, -, hd⟩
  · simp [hd, hbusy] at hidle
  · exact .inl hreset
  · simp [hbusy] at hp
  · rcases s.dec.consume_cases s.addrW byte with ⟨-, h⟩ | ⟨-, h9, h⟩ | ⟨-, -, hlast, h⟩ | ⟨-, -, -, h⟩ <;>
      rw [hd, h] at hidle ⊢
    · exact .inr (.inl ⟨rfl, rfl, rfl, rfl⟩)
    · exact .inr (.inr (.inl ⟨rfl, BitVec.eq_of_toNat_eq h9, rfl, rfl, rfl⟩))
    · exact .inr (.inr (.inr ⟨rfl, hlast, rfl, rfl, rfl⟩))
    · simp [hbusy] at hidle

/-! ### The arithmetic of a result -/

/-- The contribution of a byte is its payload at position 7*i, cut to N bits (R101). -/
theorem contrib_toNat (n i : Nat) (b : Byte) : (contrib n i b).toNat = (b.toNat % 128 * 2 ^ (7 * i)) % 2 ^ n := by
  unfold contrib groupBits
  rw [BitVec.toNat_shiftLeft, BitVec.toNat_setWidth, payload_toNat, Nat.shiftLeft_eq, Nat.mod_mul_mod]

/-- The stage of a BYTE step as a number: it adds inside the window and keeps `ACC` past it (R93, R103). -/
theorem Decoder.stage_toNat (d : Decoder) (byte : Byte) :
    (d.stage byte).toNat =
      if d.idx.toNat < widthWindow d.latN then
        (d.acc.toNat + byte.toNat % 128 * 2 ^ (7 * d.idx.toNat)) % 2 ^ widthBits d.latN
      else d.acc.toNat % 2 ^ widthBits d.latN := by
  unfold Decoder.stage
  split
  · rw [accStep_inWindow _ _ ‹_›, BitVec.toNat_add, BitVec.toNat_setWidth, contrib_toNat, ← Nat.add_mod]
  · rw [accStep_pastWindow _ _ ‹_›, BitVec.toNat_setWidth]

/-- Extending a value to 64 bits keeps its number (R93). -/
theorem setWidth64_toNat {n : Width} (x : BitVec (widthBits n)) : (x.setWidth 64).toNat = x.toNat :=
  BitVec.toNat_setWidth_of_le (widthBits_le n)

/-- The terminating byte of either command delivers its result (R93). -/
theorem exec_terminator_delivers {i : Instr} {s : State} {byte : Byte} (hp : s.dec.phase = .busy)
    (h9 : s.dec.idx.toNat ≤ 9) (hb : Memory.read s.mem (s.dec.rdAddr s.addrW) = some byte) (h128 : byte.toNat < 128) :
    ∃ t : State, exec i s = .next t ∧ t.dec.phase = .idle ∧ t.dec.resStatus = .ok ∧
      t.dec.resValue.map BitVec.toNat = some (
        if s.dec.idx.toNat < widthWindow s.dec.latN then
          (s.dec.acc.toNat + byte.toNat * 2 ^ (7 * s.dec.idx.toNat)) % 2 ^ widthBits s.dec.latN
        else s.dec.acc.toNat % 2 ^ widthBits s.dec.latN) ∧
      t.dec.resLen.map BitVec.toNat = some (s.dec.idx.toNat + 1) ∧
      t.dec.resNext = some ((s.dec.latBase + s.dec.idx.toNat + 1) % 2 ^ s.addrW) := by
  have hc : cont byte = false := by
    simp [cont, BitVec.getLsbD, Nat.testBit_lt_two_pow (i := 7) h128]
  refine ⟨_, exec_busy_readable hp hb, ?_⟩
  rw [State.setDec_dec, Decoder.consume_terminator _ _ hc]
  refine ⟨rfl, rfl, congrArg some ?_, congrArg some ?_, rfl⟩
  · rw [setWidth64_toNat, Decoder.stage_toNat, Nat.mod_eq_of_lt h128]
  · rw [BitVec.toNat_ofNat]
    omega

/-- Settles O12: at index 9 and below the byte lies in the window of DECODE64. -/
theorem decode64DeliversItsResult : Obligations.Decode64DeliversItsResult := by
  intro budget s byte hp hn _ h9 hb h128
  have h := exec_terminator_delivers (i := .decode64 budget) hp h9 hb h128
  rw [hn, if_pos (show s.dec.idx.toNat < widthWindow .w64 from Nat.lt_succ_of_le h9)] at h
  exact h

/-- Settles O13: the window of DECODE32 ends at index 5. -/
theorem decode32DeliversItsResult : Obligations.Decode32DeliversItsResult := by
  intro budget s byte hp hn _ h9 hb h128
  have h := exec_terminator_delivers (i := .decode32 budget) hp h9 hb h128
  rw [hn] at h
  exact h

/-! ### The scan -/

/-- The four ways the scan can go at index `i` (R85), each with its condition. -/
theorem scanFrom_cases (b : Nat) (byte : Nat → Byte) {fuel i : Nat} (hi : i + (fuel + 1) = 10) :
    (cont (byte i) = false ∧ scanFrom b byte (fuel + 1) = .term i) ∨
    (cont (byte i) = true ∧ i = 9 ∧ scanFrom b byte (fuel + 1) = .ovf) ∨
    (cont (byte i) = true ∧ i ≠ 9 ∧ i + 1 = b ∧ scanFrom b byte (fuel + 1) = .bud) ∨
    (cont (byte i) = true ∧ i ≠ 9 ∧ i + 1 ≠ b ∧ scanFrom b byte (fuel + 1) = scanFrom b byte fuel) := by
  have hidx : maxBytes - (fuel + 1) = i := by
    unfold maxBytes
    omega
  cases hc : cont (byte i) with
  | false => exact .inl ⟨rfl, by simp [scanFrom, hidx, hc]⟩
  | true =>
    by_cases h9 : i = 9
    · subst h9
      exact .inr (.inl ⟨rfl, rfl, by simp [scanFrom, hidx, hc]⟩)
    · by_cases hb : i + 1 = b
      · exact .inr (.inr (.inl ⟨rfl, h9, hb, by simp [scanFrom, hidx, hc, h9, hb]⟩))
      · exact .inr (.inr (.inr ⟨rfl, h9, hb, scanFrom_goesOn hi hc h9 hb⟩))

/-- What the bytes are when the scan with budget `b` has a given outcome (R82 to R84). -/
def ScanOutcome (b : Nat) (byte : Nat → Byte) : ScanResult → Prop
  | .term i => i < b ∧ cont (byte i) = false ∧ ∀ j, j < i → cont (byte j) = true
  | .ovf => b = 10 ∧ ∀ j, j < 10 → cont (byte j) = true
  | .bud => b < 10 ∧ ∀ j, j < b → cont (byte j) = true

/-- The scan from index `i` on has its outcome, when no byte before `i` ended it. -/
theorem scanFrom_outcome {b : Nat} {byte : Nat → Byte} (hb : b ≤ 10) {fuel i : Nat} (hi : i + fuel = 10)
    (hib : i < b) (hbefore : ∀ j, j < i → cont (byte j) = true) :
    ScanOutcome b byte (scanFrom b byte fuel) := by
  induction fuel generalizing i with
  | zero => omega
  | succ fuel ih =>
    have hupto : cont (byte i) = true → ∀ j, j < i + 1 → cont (byte j) = true := fun hc =>
      Nat.forall_lt_succ_right.mpr ⟨hbefore, hc⟩
    rcases scanFrom_cases b byte hi with ⟨hc, h⟩ | ⟨hc, h9, h⟩ | ⟨hc, h9, hlast, h⟩ | ⟨hc, h9, hlast, h⟩ <;> rw [h]
    · exact ⟨hib, hc, hbefore⟩
    · subst h9
      exact ⟨by omega, hupto hc⟩
    · subst hlast
      exact ⟨by omega, hupto hc⟩
    · exact ih (by omega) (by omega) (hupto hc)

/-- The first byte with bit 7 clear leaves no other outcome (R86). -/
theorem ScanOutcome.eq_term {b i : Nat} {byte : Nat → Byte} {r : ScanResult} (hb : b ≤ 10)
    (h : ScanOutcome b byte (.term i)) (hr : ScanOutcome b byte r) : r = .term i := by
  obtain ⟨hib, hterm, hbefore⟩ := h
  have hstop {k : Nat} (hik : i < k) (hall : ∀ j, j < k → cont (byte j) = true) : False := by
    simp [hall i hik] at hterm
  cases r with
  | ovf => exact (hstop (by omega) hr.2).elim
  | bud => exact (hstop hib hr.2).elim
  | term k =>
    obtain ⟨-, hterm', hbefore'⟩ := hr
    rcases Nat.lt_trichotomy i k with hlt | rfl | hgt
    · exact (hstop hlt hbefore').elim
    · rfl
    · simp [hbefore k hgt] at hterm'

/-- The bytes leave the scan one outcome (R86). -/
theorem ScanOutcome.unique {b : Nat} {byte : Nat → Byte} {r r' : ScanResult} (hb : b ≤ 10)
    (h : ScanOutcome b byte r) (h' : ScanOutcome b byte r') : r = r' := by
  cases r with
  | term i => exact (h.eq_term hb h').symm
  | ovf =>
    cases r' with
    | term i => exact h'.eq_term hb h
    | ovf => rfl
    | bud => exact absurd h.1 h'.1.ne
  | bud =>
    cases r' with
    | term i => exact h'.eq_term hb h
    | ovf => exact absurd h'.1 h.1.ne
    | bud => rfl

theorem scan_outcome {b : Nat} (byte : Nat → Byte) (hb : 1 ≤ b ∧ b ≤ 10) : ScanOutcome b byte (scan b byte) :=
  scanFrom_outcome hb.2 (Nat.zero_add _) hb.1 (fun _ => nofun)

/-- The scan is the outcome that its bytes have. -/
theorem scan_eq_iff {b : Nat} {byte : Nat → Byte} {r : ScanResult} (hb : 1 ≤ b ∧ b ≤ 10) :
    scan b byte = r ↔ ScanOutcome b byte r :=
  ⟨fun h => h ▸ scan_outcome byte hb, (scan_outcome byte hb).unique hb.2⟩

/-- The scan reads at least one byte and at most its budget (R46). -/
theorem ScanOutcome.reads_range {b : Nat} {byte : Nat → Byte} {r : ScanResult} (hb : 1 ≤ b)
    (h : ScanOutcome b byte r) : 1 ≤ scanReads b r ∧ scanReads b r ≤ b := by
  cases r with
  | term i => exact ⟨Nat.le_add_left 1 i, h.1⟩
  | ovf => exact ⟨by simp [scanReads, maxBytes], h.1.ge⟩
  | bud => exact ⟨hb, le_rfl⟩

/-- Every byte that the scan reads but the last has bit 7 set. -/
theorem ScanOutcome.cont_of_succ_lt_reads {b j : Nat} {byte : Nat → Byte} {r : ScanResult}
    (h : ScanOutcome b byte r) (hj : j + 1 < scanReads b r) : cont (byte j) = true := by
  cases r with
  | term i => exact h.2.2 j (Nat.lt_of_succ_lt_succ hj)
  | ovf => exact h.2 j (Nat.lt_of_succ_lt hj)
  | bud => exact h.2 j (Nat.lt_of_succ_lt hj)

/-- Settles O39: each clause is `scan_eq_iff` at one outcome. -/
theorem scanOutcomes : Obligations.ScanOutcomes := by
  intro b byte h1 h10
  obtain ⟨hpos, hle⟩ := (scan_outcome byte ⟨h1, h10⟩).reads_range h1
  exact ⟨fun _ => scan_eq_iff ⟨h1, h10⟩, scan_eq_iff ⟨h1, h10⟩, scan_eq_iff ⟨h1, h10⟩, hpos,
    le_min hle (hle.trans h10)⟩

/-- A smaller budget that still reaches the terminator finds it, and one that does not is exceeded (R87). -/
theorem scan_of_scan_ten {b i : Nat} {byte : Nat → Byte} (hb : 1 ≤ b ∧ b ≤ 10) (h : scan 10 byte = .term i) :
    (i + 1 ≤ b → scan b byte = .term i) ∧ (b < i + 1 → scan b byte = .bud) := by
  obtain ⟨h10, hterm, hbefore⟩ := (scan_eq_iff (by decide)).mp h
  exact ⟨fun hi => (scan_eq_iff hb).mpr ⟨hi, hterm, hbefore⟩,
    fun hi => (scan_eq_iff hb).mpr ⟨by omega, fun j hj => hbefore j (by omega)⟩⟩

/-! ### `Decode` as a function of the scan -/

/-- The byte at index `j` of a command at `base`, over the stream `m` and `w` address bits (R43). -/
def Memory.stream (m : Memory) (w base j : Nat) : Byte := (Memory.read m (ea w base j)).getD 0

theorem State.stream_eq (s : State) (base : Nat) : s.stream base = s.mem.stream s.addrW base := rfl

/-- The result that R89 gives each outcome of the scan. -/
def ScanResult.deliver (n : Width) (b w base : Nat) (byte : Nat → Byte) : ScanResult → DecodeResult (widthBits n)
  | .term i => ⟨.ok, some (accumulate n (i + 1) byte), some (i + 1), some (wrapAddr w (base + i + 1))⟩
  | .ovf => ⟨.overflow, none, none, none⟩
  | .bud => ⟨.budgetExceeded, some (speculative n b byte), none, none⟩

/-- The loop of R89 from index `i` on, with the accumulation of the bytes before `i`, has the result of the scan
exactly where every byte that the scan reads is readable. -/
theorem decodeFrom_eq_some_iff {n : Width} {b w base : Nat} {m : Memory} {r : DecodeResult (widthBits n)}
    (hb : b ≤ 10) {fuel i : Nat} (hi : i + fuel = 10) (hib : i < b)
    (hbefore : ∀ j, j < i → readable m (ea w base j) = true) :
    decodeFrom n b w base m fuel i (accumulate n i (m.stream w base)) = some r ↔
      (∀ j, j < scanReads b (scanFrom b (m.stream w base) fuel) → readable m (ea w base j) = true) ∧
        (scanFrom b (m.stream w base) fuel).deliver n b w base (m.stream w base) = r := by
  induction fuel generalizing i with
  | zero => omega
  | succ fuel ih =>
    cases hread : Memory.read m (ea w base i) with
    | none =>
      have hlt := lt_scanReads_scanFrom (m.stream w base) hi (by omega) hib
      refine ⟨fun h => by simp [decodeFrom, hread] at h, fun h => ?_⟩
      simpa [readable, hread] using h.1 i hlt
    | some byte =>
      have hbyte : m.stream w base i = byte := by simp [Memory.stream, hread]
      have hupto : ∀ j, j < i + 1 → readable m (ea w base j) = true :=
        Nat.forall_lt_succ_right.mpr ⟨hbefore, by simp [readable, hread]⟩
      have hacc := accumulate_succ n i (m.stream w base)
      rw [hbyte] at hacc
      rw [decodeFrom, hread]
      simp only [← hacc]
      rcases scanFrom_cases b (m.stream w base) hi with ⟨hc, h⟩ | ⟨hc, h9, h⟩ | ⟨hc, h9, hlast, h⟩ |
        ⟨hc, h9, hlast, h⟩ <;> rw [h] <;> rw [hbyte] at hc
      · refine Iff.trans ?_ (and_iff_right hupto).symm
        simp [hc, ScanResult.deliver]
      · subst h9
        refine Iff.trans ?_ (and_iff_right hupto).symm
        simp [hc, ScanResult.deliver]
      · subst hlast
        refine Iff.trans ?_ (and_iff_right hupto).symm
        simp [hc, h9, ScanResult.deliver, speculative]
      · simpa [hc, h9, hlast] using ih (by omega) (by omega) hupto

/-- `Decode` has a result exactly where every byte of the scan is readable, and the scan then says which (R89). -/
theorem decodeTransaction_eq_some_iff {n : Width} {b w base : Nat} {m : Memory} {r : DecodeResult (widthBits n)}
    (hb : 1 ≤ b ∧ b ≤ 10) :
    decodeTransaction n b w base m = some r ↔
      (∀ j, j < scanReads b (scan b (m.stream w base)) → readable m (ea w base j) = true) ∧
        (scan b (m.stream w base)).deliver n b w base (m.stream w base) = r :=
  decodeFrom_eq_some_iff hb.2 (Nat.zero_add _) hb.1 (fun _ => nofun)

/-- An OK result comes from a terminator, and its length is the number of bytes up to there (R89). -/
theorem ScanResult.eq_term_of_deliver_len {n : Width} {b w base l : Nat} {byte : Nat → Byte} {o : ScanResult}
    (h : (o.deliver n b w base byte).len = some l) : ∃ i, o = .term i ∧ l = i + 1 := by
  cases o with
  | term i => exact ⟨i, rfl, (Option.some.inj h).symm⟩
  | ovf => cases h
  | bud => cases h

/-- Settles O40: the scan finds the same terminator, and what `Decode` reads and delivers at a terminator does not
depend on the budget. -/
theorem budgetNeverChangesSuccess : Obligations.BudgetNeverChangesSuccess := by
  refine ⟨fun b i byte h1 h10 => scan_of_scan_ten ⟨h1, h10⟩, fun n b w base l m r h1 h10 hr _ hl hlb => ?_⟩
  obtain ⟨hread, rfl⟩ := (decodeTransaction_eq_some_iff (by decide)).mp hr
  obtain ⟨i, hterm, rfl⟩ := ScanResult.eq_term_of_deliver_len hl
  have hterm' := (scan_of_scan_ten ⟨h1, h10⟩ hterm).1 hlb
  rw [hterm] at hread ⊢
  rw [decodeTransaction_eq_some_iff ⟨h1, h10⟩, hterm']
  exact ⟨hread, rfl⟩

/-! ### The step machine and `Decode` -/

/-- The registers of a command in flight after the bytes before index `j`: `IDX` is `j` and `ACC` their accumulation
(R25, R26, R102). -/
def Decoder.inFlight (d : Decoder) (n : Width) (b : BitVec 4) (base : Nat) (byte : Nat → Byte) (j : Nat) : Decoder :=
  { d.start n b base with acc := (accumulate n j byte).setWidth 64, idx := BitVec.ofNat 4 j }

theorem Decoder.inFlight_zero (d : Decoder) (n : Width) (b : BitVec 4) (base : Nat) (byte : Nat → Byte) :
    d.inFlight n b base byte 0 = d.start n b base := by
  simp [Decoder.inFlight, accumulate, Decoder.start]

/-- The registers of a completed command hold the result `r`, its value extended to 64 bits (R94, R95). -/
structure Decoder.Holds {k : Nat} (d : Decoder) (r : DecodeResult k) : Prop where
  idle : d.phase = .idle
  status : d.resStatus = r.status
  value : d.resValue = r.value.map (fun v => v.setWidth 64)
  len : d.resLen = r.len.map (BitVec.ofNat 4)
  next : d.resNext = r.next

section
variable (d : Decoder) {n : Width} {b : BitVec 4} {w base j : Nat} {byte : Nat → Byte}

theorem Decoder.inFlight_idx_toNat (hj : j < 10) : (d.inFlight n b base byte j).idx.toNat = j := by
  show (BitVec.ofNat 4 j).toNat = j
  rw [BitVec.toNat_ofNat]
  omega

/-- The stage of a command in flight is the next accumulation (R93, R109). -/
theorem Decoder.inFlight_stage (hj : j < 10) :
    (d.inFlight n b base byte j).stage (byte j) = accumulate n (j + 1) byte := by
  unfold Decoder.stage
  rw [d.inFlight_idx_toNat hj, accumulate_succ]
  show accStep n (((accumulate n j byte).setWidth 64).setWidth (widthBits n)) j (byte j) = _
  rw [setWidth_widthBits]

/-- A BYTE step on a byte that the scan reads before its last goes on to the next index. -/
theorem Decoder.inFlight_goesOn {o : ScanResult} (hb : 1 ≤ b.toNat ∧ b.toNat ≤ 10)
    (ho : ScanOutcome b.toNat byte o) (hj : j + 1 < scanReads b.toNat o) :
    (d.inFlight n b base byte j).consume w (byte j) = d.inFlight n b base byte (j + 1) := by
  have hreads := (ho.reads_range hb.1).2
  have hidx : (d.inFlight n b base byte j).idx.toNat = j := d.inFlight_idx_toNat (by omega)
  have hbudget : (d.inFlight n b base byte j).latBudget = b := rfl
  rw [Decoder.consume_goesOn _ _ (ho.cont_of_succ_lt_reads hj) (by omega) (by rw [hbudget]; omega),
    d.inFlight_stage (by omega)]
  simp [Decoder.inFlight, BitVec.ofNat_add]

/-- A BYTE step on the last byte that the scan reads completes with the result of its outcome. -/
theorem Decoder.inFlight_holds {o : ScanResult} (hb : 1 ≤ b.toNat ∧ b.toNat ≤ 10)
    (ho : ScanOutcome b.toNat byte o) (hj : j + 1 = scanReads b.toNat o) :
    ((d.inFlight n b base byte j).consume w (byte j)).Holds (o.deliver n b.toNat w base byte) := by
  have hreads := (ho.reads_range hb.1).2
  have hidx : (d.inFlight n b base byte j).idx.toNat = j := d.inFlight_idx_toNat (by omega)
  have hstage : (d.inFlight n b base byte j).stage (byte j) = accumulate n (j + 1) byte :=
    d.inFlight_stage (by omega)
  cases o with
  | term i =>
    obtain rfl : j = i := Nat.succ.inj hj
    rw [Decoder.consume_terminator _ _ ho.2.1, hstage, hidx]
    exact ⟨rfl, rfl, rfl, rfl, rfl⟩
  | ovf =>
    obtain rfl : j = 9 := Nat.succ.inj hj
    rw [Decoder.consume_cap _ _ (ho.2 9 (by decide)) hidx]
    exact ⟨rfl, rfl, rfl, rfl, rfl⟩
  | bud =>
    have hlast : j + 1 = b.toNat := hj
    have hbudget := ho.1
    rw [Decoder.consume_budget _ _ (ho.2 j (by omega)) (by omega) (by rw [hidx]; exact hlast), hstage, hlast]
    exact ⟨rfl, rfl, rfl, rfl, rfl⟩

end

/-- The machine with the offered command in flight, after the bytes before index `j`. -/
def State.inFlight (s : State) (i : Instr) (j : Nat) : State :=
  (s.setDec (s.dec.inFlight i.width i.budget s.cmdAddr (s.stream s.cmdAddr) j)).takeOffer

/-- ACCEPT of a well-formed command brings it in flight at index 0 (R92). -/
theorem State.Offers.step_inFlight {s : State} {i : Instr} (h : s.Offers i) (hi : i.wellFormed = true) :
    step s = .next (s.inFlight i 0) := by
  rw [h.step_legal hi, h.word, fieldW_encode, State.inFlight, Decoder.inFlight_zero]

/-- The step of a command in flight is the BYTE step on the byte at its index (R43, R93). -/
theorem State.Offers.step_inFlight_byte {s : State} {i : Instr} {j : Nat} (h : s.Offers i) (hj : j < 10)
    (hread : readable s.mem (ea s.addrW s.cmdAddr j) = true) :
    step (s.inFlight i j) = .next ((s.setDec ((s.dec.inFlight i.width i.budget s.cmdAddr
      (s.stream s.cmdAddr) j).consume s.addrW (s.stream s.cmdAddr j))).takeOffer) := by
  have hidx : (s.inFlight i j).dec.idx.toNat = j := s.dec.inFlight_idx_toNat hj
  have hbyte : (s.inFlight i j).streamByte s.cmdAddr j = some (s.stream s.cmdAddr j) := State.stream_readable hread
  have hu : (s.inFlight i j).Undisturbed := State.undisturbed_takeOffer h.turnIsBlocks h.notInReset
  exact hu.step_readable rfl (by rw [hidx]; exact hbyte)

/-- After ACCEPT and `j` BYTE steps, fewer than the scan reads, the command is in flight at index `j` (R95). -/
theorem State.Offers.runSteps_inFlight {s : State} {i : Instr} {o : ScanResult} (h : s.Offers i)
    (hi : i.wellFormed = true) (ho : ScanOutcome i.budget.toNat (s.stream s.cmdAddr) o)
    (hread : ∀ j, j < scanReads i.budget.toNat o → readable s.mem (ea s.addrW s.cmdAddr j) = true) {j : Nat}
    (hj : j < scanReads i.budget.toNat o) : runSteps (j + 1) s = .next (s.inFlight i j) := by
  have hb := (legalBudget_iff i.budget).mp hi
  have hreads := (ho.reads_range hb.1).2
  induction j with
  | zero => exact runSteps_of_step (h.step_inFlight hi) 0
  | succ j ih =>
    rw [runSteps_succ (ih (by omega)), h.step_inFlight_byte (by omega) (hread j (by omega)),
      Decoder.inFlight_goesOn _ hb ho hj]
    rfl

/-- Settles O41: the machine goes through the command in flight at each index that the scan reads but the last, and
the last byte completes it with the scan's outcome, which is what `Decode` delivers. -/
theorem machineAgreesWithDecode : Obligations.MachineAgreesWithDecode := by
  intro i s r hoffer hi hr byte m
  have hb := (legalBudget_iff i.budget).mp hi
  rw [decodeTransaction_eq_some_iff hb, ← State.stream_eq] at hr
  obtain ⟨hread, rfl⟩ := hr
  have ho := scan_outcome byte hb
  obtain ⟨hpos, hle⟩ := ho.reads_range hb.1
  have hrun {j : Nat} (hj : j < m) : runSteps (j + 1) s = .next (s.inFlight i j) :=
    hoffer.runSteps_inFlight hi ho hread hj
  refine ⟨hpos, hle.trans hb.2, ?_, fun j hj => ⟨_, hrun hj, rfl, ?_, ?_⟩⟩
  · obtain ⟨k, hk⟩ : ∃ k, k + 1 = m := ⟨m - 1, by omega⟩
    have hkm : k < m := by omega
    have hdone := (runSteps_succ (hrun hkm)).trans (hoffer.step_inFlight_byte (by omega) (hread k hkm))
    rw [hk] at hdone
    obtain ⟨hidle, hstatus, hvalue, hlen, hnext⟩ := s.dec.inFlight_holds hb ho hk
    exact ⟨_, hdone, hidle, hstatus, hvalue, hlen, hnext⟩
  · exact s.dec.inFlight_idx_toNat (by omega)
  · exact setWidth_widthBits _ _

end Sys2Proof.Machine

/-!
SUPPORT and PROOFS of the family of the value datapath: one contribution as a number and bit by bit, the accumulation as
a sum and as an OR, the window's stop, the fill, and the speculative value.
-/
namespace Sys2Proof.Machine

/-! ### Two values that meet at bit `k`: the one below it, the other from it up -/

/-- A number below `2^k` has no bit from `k` up. -/
theorem getLsbD_eq_false_of_toNat_lt {w k j : Nat} {x : BitVec w} (hx : x.toNat < 2 ^ k) (hj : k ≤ j) :
    x.getLsbD j = false :=
  Nat.testBit_lt_two_pow (hx.trans_le (Nat.pow_le_pow_right (by decide) hj))

theorem and_eq_zero_of_split {w k : Nat} {x y : BitVec w} (hx : x.toNat < 2 ^ k)
    (hy : ∀ j, j < k → y.getLsbD j = false) : x &&& y = 0 := by
  apply BitVec.eq_of_getLsbD_eq
  intro j _
  rw [BitVec.getLsbD_and]
  rcases Nat.lt_or_ge j k with hj | hj
  · simp [hy j hj]
  · simp [getLsbD_eq_false_of_toNat_lt hx hj]

/-! ### The contribution of one byte -/

/-- Settles O32: a contribution as a number. -/
theorem contributionIsShiftedPayload : Obligations.ContributionIsShiftedPayload := contrib_toNat

/-- A contribution holds the payload's bits from position 7*i up, cut to N bits (R101). -/
theorem contrib_getLsbD (n i j : Nat) (b : Byte) :
    (contrib n i b).getLsbD j = (decide (j < n) && decide (7 * i ≤ j) && (payload b).getLsbD (j - 7 * i)) := by
  unfold contrib groupBits
  rw [BitVec.getLsbD_shiftLeft, BitVec.getLsbD_setWidth]
  by_cases hn : j < n
  · simp [hn, show j - 7 * i < n by omega, ← decide_not]
  · simp [hn]

/-- The bits of a contribution lie in its range of seven (R104). -/
theorem contrib_bit_range {n i j : Nat} {b : Byte} (h : (contrib n i b).getLsbD j = true) :
    7 * i ≤ j ∧ j ≤ 7 * i + 6 ∧ j < n := by
  simp only [contrib_getLsbD, Bool.and_eq_true, decide_eq_true_eq] at h
  obtain ⟨⟨hn, hlow⟩, hbit⟩ := h
  have := BitVec.lt_of_getLsbD hbit
  omega

theorem contrib_getLsbD_below {n i j : Nat} (b : Byte) (h : j < 7 * i) : (contrib n i b).getLsbD j = false := by
  rw [contrib_getLsbD, decide_eq_false (Nat.not_le.mpr h)]
  simp

/-- Where only `k` of the seven bits lie below N, only the low `k` payload bits enter the value (R108). -/
theorem contrib_toNat_of_tail {k : Nat} (i : Nat) (b : Byte) (hk : k ≤ 7) :
    (contrib (k + 7 * i) i b).toNat = b.toNat % 2 ^ k * 2 ^ (7 * i) := by
  have hdvd : 2 ^ k ∣ 128 := Nat.pow_dvd_pow 2 hk
  rw [contrib_toNat, Nat.pow_add, Nat.mul_mod_mul_right, Nat.mod_mod_of_dvd _ hdvd]

/-- Settles O38: one bit of the 10th byte lies below 64, four of the 5th byte lie below 32. -/
theorem overlongTails : Obligations.OverlongTails := fun b =>
  ⟨contrib_toNat_of_tail (k := 1) 9 b (by decide), contrib_toNat_of_tail (k := 4) 4 b (by decide)⟩

/-! ### The accumulation -/

theorem accumulate_inWindow {n : Width} {m : Nat} (byte : Nat → Byte) (h : m < widthWindow n) :
    accumulate n (m + 1) byte = accumulate n m byte + contrib (widthBits n) m (byte m) := if_pos h

theorem accumulate_pastWindow {n : Width} {m : Nat} (byte : Nat → Byte) (h : ¬m < widthWindow n) :
    accumulate n (m + 1) byte = accumulate n m byte := if_neg h

/-- The accumulation is the sum of the payloads in the window, modulo 2^N (R102). -/
theorem accumulate_toNat (n : Width) (m : Nat) (byte : Nat → Byte) :
    (accumulate n m byte).toNat =
      (∑ i ∈ Finset.range (min m (widthWindow n)), (byte i).toNat % 128 * 2 ^ (7 * i)) % 2 ^ widthBits n := by
  induction m with
  | zero => simp [accumulate]
  | succ m ih =>
    by_cases h : m < widthWindow n
    · rw [accumulate_inWindow byte h, BitVec.toNat_add, ih, contrib_toNat, ← Nat.add_mod, Nat.min_eq_left h.le,
        Nat.min_eq_left h, Finset.sum_range_succ]
    · rw [accumulate_pastWindow byte h, ih, Nat.min_eq_right (by omega), Nat.min_eq_right (by omega)]

/-- Settles O33: the sum of either width with its window and its modulus written out. -/
theorem accumulationIsTheWrappingSum : Obligations.AccumulationIsTheWrappingSum := by
  intro n m byte _
  cases n with
  | w32 => exact accumulate_toNat .w32 m byte
  | w64 => exact accumulate_toNat .w64 m byte

/-- The partial value after `m` bytes has no bit from 7*m up (R107). -/
theorem accumulate_toNat_lt (n : Width) (m : Nat) (byte : Nat → Byte) : (accumulate n m byte).toNat < 2 ^ (7 * m) := by
  induction m with
  | zero => simp [accumulate]
  | succ m ih =>
    rw [accumulate_succ]
    exact accStep_toNat_lt _ ih

/-- The next contribution has no bit in common with the partial value (R104). -/
theorem accumulate_and_contrib (n : Width) (m : Nat) (byte : Nat → Byte) :
    accumulate n m byte &&& contrib (widthBits n) m (byte m) = 0 :=
  and_eq_zero_of_split (accumulate_toNat_lt n m byte) fun _ => contrib_getLsbD_below _

/-- Settles O34: the next contribution begins at bit 7*m, where the partial value ends. -/
theorem additionEqualsOr : Obligations.AdditionEqualsOr := by
  refine ⟨fun _ _ _ _ => contrib_bit_range, fun n m byte hm => ?_⟩
  have hdisjoint := accumulate_and_contrib n m byte
  refine ⟨hdisjoint, ?_⟩
  rw [accumulate_inWindow byte hm, BitVec.add_eq_or_of_and_eq_zero _ _ hdisjoint]

/-- The accumulation depends on the bytes in the window only (R102, R103). -/
theorem accumulate_congr {n : Width} {m : Nat} {byte byte' : Nat → Byte}
    (h : ∀ j, j < m → j < widthWindow n → byte j = byte' j) : accumulate n m byte = accumulate n m byte' := by
  induction m with
  | zero => rfl
  | succ m ih =>
    have hm := ih fun j hj => h j (by omega)
    by_cases hw : m < widthWindow n
    · rw [accumulate_inWindow byte hw, accumulate_inWindow byte' hw, hm, h m (by omega) hw]
    · rw [accumulate_pastWindow byte hw, accumulate_pastWindow byte' hw, hm]

/-- From the window's end on the accumulation stays as it is (R103). -/
theorem accumulate_of_window_le {n : Width} {m : Nat} (byte : Nat → Byte) (h : widthWindow n ≤ m) :
    accumulate n m byte = accumulate n (widthWindow n) byte := by
  induction m, h using Nat.le_induction with
  | base => rfl
  | succ m hm ih => rw [accumulate_pastWindow byte (by omega), ih]

/-- Settles O35: the window of DECODE32 ends at index 5. -/
theorem decode32StopsAccumulating : Obligations.Decode32StopsAccumulating := by
  intro m byte byte' hm hagree
  refine ⟨?_, fun acc b => accStep_pastWindow acc b (Nat.not_lt.mpr hm)⟩
  calc accumulate .w32 m byte
      _ = accumulate .w32 5 byte := accumulate_of_window_le byte hm
      _ = accumulate .w32 5 byte' := accumulate_congr fun j hj _ => hagree j hj

/-! ### The fill and the speculative value -/

/-- The fill has ones from bit 7*b up, and none where 7*b is no position of the value (R105). -/
theorem fill_getLsbD {n j : Nat} (b : Nat) (hj : j < n) : (fill n b).getLsbD j = decide (7 * b ≤ j) := by
  unfold fill groupBits
  split
  · simp [hj, ← decide_not]
  · simp [show ¬7 * b ≤ j by omega]

theorem fill_getLsbD_below {n b j : Nat} (h : j < 7 * b) : (fill n b).getLsbD j = false := by
  rcases Nat.lt_or_ge j n with hj | hj
  · rw [fill_getLsbD b hj, decide_eq_false (Nat.not_le.mpr h)]
  · exact BitVec.getLsbD_of_ge _ _ hj

/-- The partial value and the fill have no bit in common, so OR-ing them is adding them (R107). -/
theorem speculative_eq_add (n : Width) (b : Nat) (byte : Nat → Byte) :
    speculative n b byte = accumulate n b byte + fill (widthBits n) b :=
  (BitVec.add_eq_or_of_and_eq_zero _ _
    (and_eq_zero_of_split (accumulate_toNat_lt n b byte) fun _ => fill_getLsbD_below)).symm

/-- Below bit 7*b the speculative value is the partial value, and from there up it is ones (R107). -/
theorem speculative_getLsbD {n : Width} {j : Nat} (b : Nat) (byte : Nat → Byte) (hj : j < widthBits n) :
    (speculative n b byte).getLsbD j = if j < 7 * b then (accumulate n b byte).getLsbD j else true := by
  unfold speculative
  rw [BitVec.getLsbD_or]
  split
  · rw [fill_getLsbD_below ‹_›, Bool.or_false]
  · rw [fill_getLsbD b hj, decide_eq_true (Nat.not_lt.mp ‹_›), Bool.or_true]

/-- Settles O37: the partial value ends at bit 7*b, where the fill begins. -/
theorem speculativeValueSplits : Obligations.SpeculativeValueSplits := fun n b byte _ _ =>
  ⟨accumulate_toNat_lt n b byte, speculative_eq_add n b byte, fun _ => speculative_getLsbD b byte⟩

end Sys2Proof.Machine

/-!
SUPPORT and PROOFS of the family of DECODE64's whole command: the run of an offered command whose bytes have a given
outcome of the scan, the fill as a number, and that run at each of the three outcomes.
-/
namespace Sys2Proof.Machine

/-! ### The whole command at a given outcome of its scan -/

/-- A command whose bytes have the outcome `o`, each byte of that scan being readable, takes ACCEPT and one BYTE step
for each of them, at `IDX` 0, 1 and so on, and then holds what `Decode` delivers at `o` (R45, R95). -/
theorem State.Offers.runs_to_outcome {s : State} {i : Instr} {o : ScanResult} (h : s.Offers i)
    (hi : i.wellFormed = true) (ho : ScanOutcome i.budget.toNat (s.stream s.cmdAddr) o)
    (hread : ∀ j, j < scanReads i.budget.toNat o → (s.streamByte s.cmdAddr j).isSome = true) :
    (∃ t, runSteps (scanReads i.budget.toNat o + 1) s = .next t ∧
      t.dec.Holds (o.deliver i.width i.budget.toNat s.addrW s.cmdAddr (s.stream s.cmdAddr))) ∧
    ∀ j, j < scanReads i.budget.toNat o →
      ∃ u, runSteps (j + 1) s = .next u ∧ u.dec.phase = .busy ∧ u.dec.idx.toNat = j := by
  have hb := (legalBudget_iff i.budget).mp hi
  obtain rfl := (scan_eq_iff hb).mpr ho
  obtain ⟨-, -, ⟨t, hrun, hidle, hstatus, hvalue, hlen, hnext⟩, hbusy⟩ :=
    machineAgreesWithDecode i s _ h hi ((decodeTransaction_eq_some_iff hb).mpr ⟨hread, rfl⟩)
  refine ⟨⟨t, hrun, hidle, hstatus, hvalue, hlen, hnext⟩, fun j hj => ?_⟩
  obtain ⟨u, hu, hphase, hidx, -⟩ := hbusy j hj
  exact ⟨u, hu, hphase, hidx⟩

/-! ### The fill as a number -/

theorem fill_toNat {n b : Nat} (h : 7 * b < n) : (fill n b).toNat = 2 ^ n - 2 ^ (7 * b) := by
  have hlt : 2 ^ (7 * b) < 2 ^ n := Nat.pow_lt_pow_right (by decide) h
  have hpos : 0 < 2 ^ (7 * b) := Nat.two_pow_pos _
  have hsplit : (2 ^ n - 1) * 2 ^ (7 * b) = 2 ^ n - 2 ^ (7 * b) + 2 ^ n * (2 ^ (7 * b) - 1) := by
    rw [Nat.sub_mul, Nat.mul_sub, Nat.mul_one, Nat.one_mul]
    have := Nat.le_mul_of_pos_right (2 ^ n) hpos
    omega
  unfold fill groupBits
  rw [if_pos h, BitVec.toNat_shiftLeft, BitVec.toNat_allOnes, Nat.shiftLeft_eq, hsplit, Nat.add_mul_mod_self_left]
  exact Nat.mod_eq_of_lt (by omega)

/-- The speculative value with its fill written as the number of R105. -/
theorem speculative_eq_or_ofNat {n : Width} {b : Nat} (byte : Nat → Byte) (h : 7 * b < widthBits n) :
    speculative n b byte = accumulate n b byte ||| BitVec.ofNat (widthBits n) (2 ^ widthBits n - 2 ^ (7 * b)) := by
  rw [speculative, ← fill_toNat h, BitVec.ofNat_toNat, BitVec.setWidth_eq]

/-! ### DECODE64 -/

/-- Settles O42: the bytes have the outcome `term k`, whose scan reads bytes 0 to `k` alone. -/
theorem decode64Ok : Obligations.Decode64Ok := by
  intro s b k hoffer hb10 hkb hread hcont hterm
  have hlegal : legalBudget b = true := (legalBudget_iff b).mpr ⟨by omega, hb10⟩
  have hout : ScanOutcome b.toNat (s.stream s.cmdAddr) (.term k) := ⟨hkb, hterm, hcont⟩
  obtain ⟨⟨t, hrun, hidle, hstatus, hvalue, hlen, hnext⟩, -⟩ :=
    hoffer.runs_to_outcome hlegal hout fun j hj => hread j (Nat.le_of_lt_succ hj)
  exact ⟨t, hrun, hidle, hstatus, hvalue, hlen, hnext⟩

/-- Settles O43: the bytes have the outcome `ovf`, whose scan reads ten bytes. -/
theorem decode64Overflow : Obligations.Decode64Overflow := by
  intro s hoffer hread hcont
  have hout : ScanOutcome 10 (s.stream s.cmdAddr) .ovf := ⟨rfl, hcont⟩
  obtain ⟨⟨t, hrun, hidle, hstatus, hvalue, hlen, hnext⟩, hbusy⟩ := hoffer.runs_to_outcome rfl hout hread
  exact ⟨t, hrun, hidle, hstatus, hvalue, hlen, hnext, hbusy⟩

/-- Settles O44: the bytes have the outcome `bud`, whose scan reads `b` bytes and delivers the speculative value, and
bit 7*b lies below 64. -/
theorem decode64BudgetExceeded : Obligations.Decode64BudgetExceeded := by
  intro s b hoffer hb1 hb10 hread hcont
  have hlegal : legalBudget b = true := (legalBudget_iff b).mpr ⟨hb1, hb10.le⟩
  have hout : ScanOutcome b.toNat (s.stream s.cmdAddr) .bud := ⟨hb10, hcont⟩
  have hfill : 7 * b.toNat < widthBits .w64 := show 7 * b.toNat < 64 by omega
  obtain ⟨⟨t, hrun, hidle, hstatus, hvalue, hlen, hnext⟩, hbusy⟩ := hoffer.runs_to_outcome hlegal hout hread
  have hspec : (speculative .w64 b.toNat (s.stream s.cmdAddr)).setWidth 64 =
      (accumulate .w64 b.toNat (s.stream s.cmdAddr)).setWidth 64 ||| BitVec.ofNat 64 (2 ^ 64 - 2 ^ (7 * b.toNat)) := by
    rw [speculative_eq_or_ofNat _ hfill, BitVec.setWidth_or]
    exact congrArg (_ ||| ·) (BitVec.setWidth_eq _)
  exact ⟨t, hrun, hidle, hstatus, hvalue.trans (congrArg some hspec), hlen, hnext, hbusy⟩

end Sys2Proof.Machine

/-!
SUPPORT and PROOFS of the family of DECODE32's whole command: the accumulation of a scan that may end past the window,
and the command at its terminator.
-/
namespace Sys2Proof.Machine

/-- The accumulation takes the bytes in the window only, however many the scan reads (R102, R103). -/
theorem accumulate_min_window (n : Width) (m : Nat) (byte : Nat → Byte) :
    accumulate n (min m (widthWindow n)) byte = accumulate n m byte := by
  rcases Nat.le_total m (widthWindow n) with h | h
  · rw [Nat.min_eq_left h]
  · rw [Nat.min_eq_right h, accumulate_of_window_le byte h]

/-- Settles O45: the bytes have the outcome `term k`, whose length and next address are the scan's, and the value
delivered for its `k + 1` bytes is that of the window's five at most. -/
theorem decode32Ok : Obligations.Decode32Ok := by
  intro s b k hoffer hb10 hkb hread hcont hterm
  have hlegal : legalBudget b = true := (legalBudget_iff b).mpr ⟨by omega, hb10⟩
  have hout : ScanOutcome b.toNat (s.stream s.cmdAddr) (.term k) := ⟨hkb, hterm, hcont⟩
  obtain ⟨⟨t, hrun, hidle, hstatus, hvalue, hlen, hnext⟩, -⟩ :=
    hoffer.runs_to_outcome hlegal hout fun j hj => hread j (Nat.le_of_lt_succ hj)
  have hwindow : accumulate .w32 (min (k + 1) 5) (s.stream s.cmdAddr) = accumulate .w32 (k + 1) (s.stream s.cmdAddr) :=
    accumulate_min_window .w32 (k + 1) _
  rw [hwindow]
  exact ⟨t, hrun, hidle, hstatus, hvalue, hlen, hnext⟩

end Sys2Proof.Machine

/-!
SUPPORT and PROOFS of the family of several instances: the transitions of one decoder apart from the system it stands
in, the one-move form of independence, and whole schedules.
-/
namespace Sys2Proof.Machine

/-- The transitions of one decoder over a stream (R91), each with the move that asks decoder `j` of a system for it
(`sysMove_some_cases`, `Decoder.Takes.sysMove_eq`). -/
inductive Decoder.Takes (w : Nat) (m : Memory) : (Nat → SysMove) → Decoder → Decoder → Prop where
  | accept {d : Decoder} {cmd : CmdWord} {addr : Nat} (hidle : d.phase = .idle) (haddr : isAddr w addr = true) :
      Decoder.Takes w m (fun j => .accept j cmd addr) d (d.acceptWord cmd addr)
  | byte {d d' : Decoder} (hbusy : d.phase = .busy) (hstep : d.byteStep w m = .ok d') :
      Decoder.Takes w m .byte d d'
  | reset {d : Decoder} : Decoder.Takes w m .reset d (d.reset w)

/-- A move is a transition of one decoder, which rests on that decoder's registers and the stream alone, or a host
write outside every running command's window (R49, R91). -/
theorem sysMove_some_cases {sys sys' : System} {m : SysMove} (h : sysMove sys m = some sys') :
    (∃ mv j d d', m = mv j ∧ sys.decs[j]? = some d ∧ Decoder.Takes sys.addrW sys.mem mv d d' ∧
      sys' = { sys with decs := sys.decs.set j d' }) ∨
    (∃ a b, m = .place a b ∧ isAddr sys.addrW a = true ∧
      sys.decs.all (fun d => !d.inWindow sys.addrW a) = true ∧
      sys' = { sys with mem := Memory.write sys.mem a b }) := by
  cases m with
  | accept j cmd addr =>
    simp only [sysMove] at h
    split at h
    · cases h
    · rename_i d hd
      split at h
      · rename_i hen
        cases h
        exact .inl ⟨_, j, d, _, rfl, hd, .accept hen.1 hen.2, rfl⟩
      · cases h
  | byte j =>
    simp only [sysMove] at h
    split at h
    · cases h
    · rename_i d hd
      split at h
      · split at h
        · cases h
          exact .inl ⟨_, j, d, _, rfl, hd, .byte ‹_› ‹_›, rfl⟩
        · cases h
      · cases h
  | reset j =>
    simp only [sysMove] at h
    split at h
    · cases h
    · cases h
      exact .inl ⟨_, j, _, _, rfl, ‹_›, .reset, rfl⟩
  | place a b =>
    simp only [sysMove] at h
    split at h
    · rename_i hen
      cases h
      exact .inr ⟨a, b, rfl, hen.1, hen.2, rfl⟩
    · cases h

/-- A decoder takes its transition wherever it stands, and no other decoder changes (R172). -/
theorem Decoder.Takes.sysMove_eq {sys : System} {mv : Nat → SysMove} {d d' : Decoder} {j : Nat}
    (h : Decoder.Takes sys.addrW sys.mem mv d d') (hd : sys.decs[j]? = some d) :
    sysMove sys (mv j) = some { sys with decs := sys.decs.set j d' } := by
  cases h with
  | accept hidle haddr => simp [sysMove, hd, hidle, haddr]
  | byte hbusy hstep => simp [sysMove, hd, hbusy, hstep]
  | reset => simp [sysMove, hd]

theorem Decoder.Takes.alone_eq {w : Nat} {m : Memory} {mv : Nat → SysMove} {d d' : Decoder}
    (h : Decoder.Takes w m mv d d') (k j : Nat) : (mv j).alone k = if j = k then some (mv 0) else none := by
  cases h <;> rfl

/-- A host write that no running command refuses is a move (R49, R50). -/
theorem sysMove_place_eq {sys : System} {a : Nat} {b : Byte} (haddr : isAddr sys.addrW a = true)
    (hfree : sys.decs.all (fun d => !d.inWindow sys.addrW a) = true) :
    sysMove sys (.place a b) = some { sys with mem := Memory.write sys.mem a b } :=
  if_pos ⟨haddr, hfree⟩

theorem sysRun_cons (m : SysMove) (ms : List SysMove) (sys : System) :
    sysRun (m :: ms) sys = (sysMove sys m).bind (sysRun ms) := by
  rw [sysRun]
  cases sysMove sys m <;> rfl

theorem sysRun_append (ms ns : List SysMove) (sys : System) :
    sysRun (ms ++ ns) sys = (sysRun ms sys).bind (sysRun ns) := by
  induction ms generalizing sys with
  | nil => rfl
  | cons m ms ih =>
    rw [List.cons_append, sysRun_cons, sysRun_cons]
    cases sysMove sys m with
    | none => rfl
    | some t => exact ih t

@[simp] theorem sysRun_singleton (m : SysMove) (sys : System) : sysRun [m] sys = sysMove sys m := by
  rw [sysRun_cons]
  cases sysMove sys m <;> rfl

theorem sysRun_length {ms : List SysMove} {sys sys' : System} (h : sysRun ms sys = some sys') :
    sys'.decs.length = sys.decs.length := by
  induction ms generalizing sys with
  | nil =>
    cases h
    rfl
  | cons m ms ih =>
    rw [sysRun_cons] at h
    obtain ⟨t, hm, hrest⟩ := Option.bind_eq_some_iff.mp h
    exact (ih hrest).trans (sysMove_length hm)

/-- One move, seen by decoder `k` alone: its own transition is possible there with the same result, another's leaves
its registers and the stream, and a host write that no decoder refuses is one it does not refuse (R49, R172). -/
theorem sysMove_alone {sys sys' : System} {m : SysMove} {k : Nat} {d : Decoder} (hd : sys.decs[k]? = some d)
    (h : sysMove sys m = some sys') :
    ∃ d', sys'.decs[k]? = some d' ∧
      sysRun (m.alone k).toList { sys with decs := [d] } = some { sys' with decs := [d'] } := by
  rcases sysMove_some_cases h with ⟨mv, j, e, e', rfl, he, htakes, rfl⟩ | ⟨a, b, rfl, haddr, hfree, rfl⟩
  · rw [htakes.alone_eq]
    by_cases hjk : j = k
    · subst hjk
      obtain rfl : e = d := Option.some.inj (he.symm.trans hd)
      have hlt : j < sys.decs.length := (List.getElem?_eq_some_iff.mp hd).1
      refine ⟨e', List.getElem?_set_self hlt, ?_⟩
      rw [if_pos rfl, Option.toList_some, sysRun_singleton]
      exact htakes.sysMove_eq (sys := { sys with decs := [e] }) rfl
    · rw [if_neg hjk]
      exact ⟨d, (List.getElem?_set_ne hjk).trans hd, rfl⟩
  · have hfree_k : (!d.inWindow sys.addrW a) = true := List.all_eq_true.mp hfree d (List.mem_of_getElem? hd)
    refine ⟨d, hd, ?_⟩
    rw [SysMove.alone, Option.toList_some, sysRun_singleton]
    exact sysMove_place_eq haddr (by simpa using hfree_k)

/-- Independence for a whole schedule, by induction on its moves. -/
theorem sysRun_alone {ms : List SysMove} {sys sys' : System} {k : Nat} {d : Decoder} (hd : sys.decs[k]? = some d)
    (h : sysRun ms sys = some sys') :
    ∃ d', sys'.decs[k]? = some d' ∧
      sysRun (ms.filterMap (SysMove.alone k)) { sys with decs := [d] } = some { sys' with decs := [d'] } := by
  induction ms generalizing sys d with
  | nil =>
    cases h
    exact ⟨d, hd, rfl⟩
  | cons m ms ih =>
    rw [sysRun_cons] at h
    obtain ⟨t, hm, hrest⟩ := Option.bind_eq_some_iff.mp h
    obtain ⟨e, he, hone⟩ := sysMove_alone hd hm
    obtain ⟨d', hd', hmany⟩ := ih he hrest
    have hsplit : (m :: ms).filterMap (SysMove.alone k) =
        (m.alone k).toList ++ ms.filterMap (SysMove.alone k) := by
      simp only [List.filterMap_eq_flatMap_toList, List.flatMap_cons]
    refine ⟨d', hd', ?_⟩
    rw [hsplit, sysRun_append, hone]
    exact hmany

/-- Settles O49: every move has its form for one decoder, so the schedule has, and no move changes how many instances
there are. -/
theorem instancesAreIndependent : Obligations.InstancesAreIndependent := by
  intro ms sys sys' k d hd hrun
  obtain ⟨d', hd', halone⟩ := sysRun_alone hd hrun
  exact ⟨d', hd', sysRun_length hrun, halone⟩

end Sys2Proof.Machine

/-!
SUPPORT and PROOFS of the family of reset and hazards: an offer to a running block, and the two moves that drive `rst`.
-/
namespace Sys2Proof.Machine

/-! ### A command offered to a running block -/

/-- A further offer waits while the port still holds the one before it (R182, log entry 7). -/
theorem step_offer_waits {s : State} {cmd : CmdWord} {op : AddrOperand} {rest : List HostMove}
    (h : s.host = .offer cmd op :: rest) (hv : s.cmdValid = true) : step s = blockTurn s := by
  simp [step, turn, h, hv]

/-- A BUSY block is not ready for a command (R21). -/
theorem cmdReady_of_busy {d : Decoder} (h : d.phase = .busy) : cmdReady d = false := by
  simp [cmdReady, h]

/-- Settles O16: either way the block has the turn and runs the command in flight, whose frame holds the port, the
host's list and the latch. -/
theorem offerWhileBusyIsHeld : Obligations.OfferWhileBusyIsHeld := by
  intro s t hr hp hv hstep hhost
  have hturn : step s = blockTurn s := by
    rcases hhost with hnone | ⟨cmd, op, rest, hoffer⟩
    · exact step_eq_blockTurn hnone
    · exact step_offer_waits hoffer hv
  rw [hturn, blockTurn_busy hr hp] at hstep
  obtain ⟨-, hcmd, haddr, -, hhost', -, -, hbusy, -⟩ := commandsFrame _ s t hstep
  obtain ⟨hvalid, hn, hbudget, hbase, -⟩ := hbusy hp
  exact ⟨cmdReady_of_busy hp, hvalid.trans hv, hcmd, haddr, hhost', hn, hbudget, hbase⟩

/-! ### Reset -/

/-- Asserting `rst` resets the registers at once, in any phase (R180, log entry 9). -/
theorem step_assertRst {s : State} {rest : List HostMove} (h : s.host = .assertRst :: rest) :
    step s = .next { s with host := rest, rst := true, dec := s.dec.reset s.addrW } := by
  simp [step, turn, h, resetBlock, State.setDec, State.setHost, State.setRst]

theorem step_releaseRst {s : State} {rest : List HostMove} (h : s.host = .releaseRst :: rest) :
    step s = .next { s with host := rest, rst := false } := by
  simp [step, turn, h, State.setHost, State.setRst]

/-- The block's turn while `rst` stays asserted is RESET again (R180). -/
theorem step_heldInReset {s : State} (h : s.host = []) (hr : s.rst = true) :
    step s = .next { s with dec := s.dec.reset s.addrW } := by
  rw [step_eq_blockTurn h, blockTurn_reset hr, resetBlock, State.setDec]

/-- Settles O24: the registers become those of `Decoder.reset`, whatever they were. -/
theorem resetFromAnyState : Obligations.ResetFromAnyState := by
  intro s
  refine ⟨fun rest h => ⟨_, step_assertRst h, ?_⟩, fun h hr => ⟨_, step_heldInReset h hr, ?_⟩,
    fun rest h => step_releaseRst h⟩
  all_goals exact ⟨rfl, rfl, rfl, rfl, rfl⟩

end Sys2Proof.Machine

/-!
SUPPORT and PROOFS of the family of the machine's own choices: whose turn a step is and which command it runs, what
ACCEPT and a BYTE step do outside the registers, the fill with no position left for it, and DECODE32's two failures.
-/
namespace Sys2Proof.Machine

/-! ### The fill, and DECODE32 at its budget and at the cap -/

/-- There is no fill where bit 7*b lies past the value (R105, D8). -/
theorem fill_eq_zero {n b : Nat} (h : n ≤ 7 * b) : fill n b = 0 := if_neg (Nat.not_lt.mpr h)

/-- Settles O36: bit 7*b lies below 64 up to `b = 9`, and below 32 up to `b = 4`. -/
theorem fillPattern : Obligations.FillPattern :=
  ⟨fun _ b _ => fill_getLsbD b, fun _ _ _ => fill_toNat (by omega), fun _ _ _ => fill_toNat (by omega),
    fun _ _ => fill_eq_zero (by omega)⟩

/-- Where there is no fill, the speculative value is what the whole window accumulates (R103, R106, D8). -/
theorem speculative_of_no_fill {n : Width} {b : Nat} (byte : Nat → Byte) (h : widthBits n ≤ 7 * b) :
    speculative n b byte = accumulate n (widthWindow n) byte := by
  have hwindow : widthWindow n ≤ b := by
    cases n with
    | w32 => exact (show 32 ≤ 7 * b → 5 ≤ b by omega) h
    | w64 => exact (show 64 ≤ 7 * b → 10 ≤ b by omega) h
  rw [speculative, fill_eq_zero h, accumulate_of_window_le byte hwindow]
  exact BitVec.or_zero

/-- The speculative value of DECODE32: filled up to `b = 4`, and the value of the five-byte window from `b = 5` on. -/
theorem setWidth_speculative_word32 (b : Nat) (byte : Nat → Byte) :
    (speculative .w32 b byte).setWidth 64 =
      if b ≤ 4 then
        ((accumulate .w32 b byte).setWidth 32 ||| BitVec.ofNat 32 (2 ^ 32 - 2 ^ (7 * b))).setWidth 64
      else (accumulate .w32 5 byte).setWidth 64 := by
  split
  · rw [speculative_eq_or_ofNat byte (show 7 * b < 32 by omega)]
    exact congrArg (fun x : BitVec 32 => (x ||| _).setWidth 64) (BitVec.setWidth_eq _).symm
  · rw [speculative_of_no_fill byte (show 32 ≤ 7 * b by omega)]

/-- Settles O46: the bytes have the outcome `bud`, which delivers the speculative value, or at budget 10 the outcome
`ovf`, which delivers none. -/
theorem decode32Failures : Obligations.Decode32Failures := by
  refine ⟨fun s b hoffer hb1 hb10 hread hcont => ?_, fun s hoffer hread hcont => ?_⟩
  · have hlegal : legalBudget b = true := (legalBudget_iff b).mpr ⟨hb1, hb10.le⟩
    have hout : ScanOutcome b.toNat (s.stream s.cmdAddr) .bud := ⟨hb10, hcont⟩
    obtain ⟨⟨t, hrun, hidle, hstatus, hvalue, hlen, hnext⟩, -⟩ := hoffer.runs_to_outcome hlegal hout hread
    exact ⟨t, hrun, hidle, hstatus, hvalue.trans (congrArg some (setWidth_speculative_word32 _ _)), hlen, hnext⟩
  · have hout : ScanOutcome 10 (s.stream s.cmdAddr) .ovf := ⟨rfl, hcont⟩
    obtain ⟨⟨t, hrun, hidle, hstatus, hvalue, hlen, hnext⟩, -⟩ := hoffer.runs_to_outcome rfl hout hread
    exact ⟨t, hrun, hidle, hstatus, hvalue, hlen, hnext⟩

/-! ### The command that a step runs -/

/-- ACCEPT of a word that decodes is ACCEPT of its command (R92). -/
theorem Decoder.acceptWord_of_decode {cmd : CmdWord} {i : Instr} (d : Decoder) (a : Nat) (h : decode cmd = .ok i) :
    d.acceptWord cmd a = d.accept i.width i.budget a := by
  simp [Decoder.acceptWord, h]

/-- Settles O5: the step is ACCEPT of the offered word, and so is `exec` of its command. -/
theorem stepRunsTheOfferedCommand : Obligations.StepRunsTheOfferedCommand := by
  intro s i hh hr hp hv hd
  rw [step_accept hh hr hp hv, exec_idle hp, Decoder.acceptWord_of_decode _ _ hd]

theorem State.Offers.step_eq_exec {s : State} {i : Instr} (h : s.Offers i) : step s = exec i s :=
  stepRunsTheOfferedCommand s i h.turnIsBlocks h.notInReset h.idle h.valid (h.word ▸ decode_encode i)

/-- A table word that stands for a command is the command's word (R66, R68). -/
theorem ofNat_of_decodeTableWord {w : Nat} {i : Instr} (h : decodeTableWord 8 w = some i) :
    BitVec.ofNat 8 w = encode i := by
  unfold decodeTableWord at h
  split at h
  · split at h
    · cases h
      exact (encode_of_decode ‹_›).symm
    · cases h
  · cases h

/-- Settles O4: the fetched word is the word of its command, so the state offers that command. -/
theorem tableWordIsTheNextCommand : Obligations.TableWordIsTheNextCommand := by
  intro s w i hw hd
  have hword : (s.withFetchWord 8 w).cmd = encode i := by
    rw [← ofNat_of_decodeTableWord hd]
    exact congrArg (BitVec.ofNat 8) (Nat.mod_eq_of_lt hw)
  have hoffers : (s.withFetchWord 8 w).Offers i := ⟨rfl, rfl, rfl, rfl, hword⟩
  exact ⟨hoffers.step_eq_exec, hoffers⟩

/-- Settles O6: the block's turn runs the command in flight, which the latch's width names. -/
theorem stepRunsTheCommandInFlight : Obligations.StepRunsTheCommandInFlight := by
  intro s hh hr hp
  rw [step_eq_blockTurn hh, blockTurn_busy hr hp]
  refine ⟨fun hn => ?_, fun hn => ?_⟩ <;> rw [Decoder.running, hn]

/-- The host's `wait` leaves the list, and the block has the turn (log entry 7). -/
theorem step_wait {s : State} {rest : List HostMove} (h : s.host = .wait :: rest) :
    step s = blockTurn (s.setHost rest) := by
  simp [step, turn, h]

/-- Settles O7: the step is the block's turn, and an idle block with nothing offered stays. -/
theorem waitLeavesTheTurnToTheBlock : Obligations.WaitLeavesTheTurnToTheBlock := fun s rest h =>
  ⟨step_wait h, fun hr hp hv => (step_wait h).trans (blockTurn_idle (s := s.setHost rest) hr hp hv)⟩

/-! ### What ACCEPT leaves, and where a BYTE step is stuck -/

/-- Settles O9: ACCEPT replaces the registers and takes the offer. -/
theorem acceptTakesTheOffer : Obligations.AcceptTakesTheOffer := fun i s hp =>
  ⟨s.dec.accept i.width i.budget s.cmdAddr, exec_idle hp⟩

/-- Settles O14: the byte a BYTE step reads stands at the latched base plus `IDX`. -/
theorem unreadableByteIsStuck : Obligations.UnreadableByteIsStuck := fun _ _ hp hb => exec_busy_stuck hp hb

end Sys2Proof.Machine
